-- ==== Sys2Proof/Word.lean ====
section
/-! DEFINITION. The two plain types every value of the machine has: a byte and a register number. -/

namespace Sys2Proof

/-- Rule R3: every value the core stores or moves (register, memory cell, program counter, operand
byte) is an unsigned 8-bit `Byte`. -/
abbrev Byte := BitVec 8

/-- Rule R10: the register file has 8 registers, numbered 0 to 7. -/
abbrev RegNum := Fin 8

end Sys2Proof
end

