-- ==== Sys2Proof/Config.lean ====
section
/-! DEFINITION. The parameters of the hardware that rule R2 names, each at the value of its table. The
opcode map `OPC` of the same table is `Sys2Proof.opcode` in Decode.lean. The spec leaves no value open,
so there is no free value here. -/

namespace Sys2Proof.Config

/-- `SP_INDEX` (R2, R11): register 7 is the stack pointer. -/
def spIndex : RegNum := 7

/-- `SP_RESET` (R2, R23). -/
def spReset : Byte := 0xF4#8

/-- `PC_RESET` (R2, R23, R141). -/
def pcReset : Byte := 0x00#8

/-- `MEM_RESET` (R2, R23): what a cell that nothing has written reads as. -/
def memReset : Byte := 0x00#8

/-- `GPR_RESET` (R2, R23, the spec's decision D9; assumption log 1). -/
def gprReset : Byte := 0x00#8

/-- `FLAG_RESET` (R2, R23, the spec's decision D10; assumption log 2). -/
def flagReset : Bool := false

/-- The highest memory address, `MEM_SIZE - 1` (R2, R20). -/
abbrev topAddr : Nat := 255

end Sys2Proof.Config
end

