-- ==== Sys2Proof/Machine/State.lean ====
section
/-! DEFINITION. The complete state of the core (rule R22): `x[0..7]`, `pc`, `E`, `L`, `G`, `mem[0..255]`, `run`,
the fault record and `out`; the reset state (R23, R140); and the reasons a step of the MODEL could stop. -/

namespace Sys2Proof.Machine

/-- The run state (R17). -/
inductive RunState where
  /-- Reset done, not started. -/
  | idle
  /-- The execution loop is taking steps. -/
  | running
  /-- Stopped by HLT. -/
  | halted
  /-- Stopped by a fault. -/
  | faulted
  deriving DecidableEq, Repr

/-- The fault causes (R18, R121 to R123). -/
inductive FaultCause where
  | invalidInstruction
  | addressOutOfRange
  /-- Kept so that the cause set matches the source; no rule raises it (R91, R123). -/
  | unsupportedAluOperation
  deriving DecidableEq, Repr

/-- What an offending number in the fault record is: a memory address or a register number (R18). -/
inductive AddrKind where
  | mem
  | reg
  deriving DecidableEq, Repr

/-- The operand of `raise F(info)` (R4): the cause and the information that goes with it. -/
structure Raise where
  cause : FaultCause
  info : Option (AddrKind × Int)
  deriving DecidableEq, Repr

/-- The four fields of the fault record (R18). -/
structure FaultRecord where
  cause : FaultCause
  opcode : Byte
  addr : Byte
  info : Option (AddrKind × Int)
  deriving DecidableEq, Repr

/-- The three condition flags (R15): equal, less-than, greater-than. -/
structure Flags where
  e : Bool
  l : Bool
  g : Bool
  deriving DecidableEq, Repr

/-- Memory (R20) as (address, byte) pairs: addresses strictly rising, no entry equal to the reset contents of
a cell, which is what an unlisted address reads as (`Memory.wf`). -/
abbrev Memory := List Host.Cell

/-- The state of the machine (R22). There is nothing else. -/
structure State where
  /-- `x[0..7]` (R10); `x[7]` is the stack pointer (R11). -/
  regs : Vector Byte 8
  /-- The program counter (R13). -/
  pc : Byte
  /-- `E`, `L`, `G` (R15). -/
  flags : Flags
  /-- `mem[0..255]` (R20). -/
  mem : Memory
  /-- The run state (R17). -/
  run : RunState
  /-- The fault record (R18); `none` is "empty (no fault)" (R23). -/
  faultRecord : Option FaultRecord
  /-- The output trace, oldest first (R19). -/
  out : List Byte
  deriving DecidableEq, Repr

/-- Why a step of the model could stop with a model fault. THERE IS NO SUCH REASON, so there is no constructor:
every fault the spec describes is a NEXT state with `run = FAULTED` and the fault record written (R4, R126),
and the spec calls no behaviour of this core undefined (92_eei_decisions.md: no point is left OPEN). Raised by
nothing; safe. -/
inductive Fault where
  deriving DecidableEq, Repr

/-- Why the model could have no meaning for an instruction. -/
inductive Refusal where
  /-- An instruction whose arm of `exec` has no meaning yet, by its mnemonic. Raised by such an arm only, and all
  13 arms have their meaning, so nothing raises it; safe (the model stops where the hardware goes on). -/
  | notModelled (mnemonic : String)
  deriving DecidableEq, Repr

/-- The machine right after reset (R23, R140). -/
def State.reset : State where
  regs := #v[Config.gprReset, Config.gprReset, Config.gprReset, Config.gprReset, Config.gprReset, Config.gprReset,
    Config.gprReset, Config.spReset]
  pc := Config.pcReset
  flags := { e := Config.flagReset, l := Config.flagReset, g := Config.flagReset }
  mem := []
  run := .idle
  faultRecord := none
  out := []

end Sys2Proof.Machine
end

