-- ==== Sys2Proof/Machine/Ops.lean ====
section
/-! DEFINITION. The named operations over registers, memory, output and `pc`, taking a fault (R4, R126), and the
transaction that every handler is (R4). -/

namespace Sys2Proof.Machine

/-! ### Memory -/

/-- The byte in cell `a`; a cell that is not listed holds its reset contents (R5, R33). -/
def Memory.read : Memory → Nat → Byte
  | [], _ => Config.memReset
  | (b, v) :: m, a => if a = b then v else Memory.read m a

/-- Take every entry for cell `a` away, so that it reads as its reset contents. -/
def Memory.remove : Memory → Nat → Memory
  | [], _ => []
  | (b, w) :: m, a => if a = b then Memory.remove m a else (b, w) :: Memory.remove m a

/-- Put an entry in its place in the rising order of addresses. -/
def Memory.place : Memory → Nat → Byte → Memory
  | [], a, v => [(a, v)]
  | (b, w) :: m, a, v => if a < b then (a, v) :: (b, w) :: m else (b, w) :: Memory.place m a v

/-- Replace the content of cell `a` by `v` (R5): an entry for it unless `v` is what an unlisted cell reads as. -/
def Memory.write (m : Memory) (a : Nat) (v : Byte) : Memory :=
  if v = Config.memReset then Memory.remove m a else Memory.place (Memory.remove m a) a v

/-- The canonical form of a memory: addresses strictly rising, every address a cell of R20's 256, and no entry
equal to what an unlisted address reads as. -/
abbrev Memory.wf (m : Memory) : Prop :=
  m.Pairwise (fun c d => c.1 < d.1) ∧ ∀ c ∈ m, c.1 < 256 ∧ c.2 ≠ Config.memReset

/-- `MemRead(a, 1)` (R5, R30): total, since an address is a byte and all 256 cells exist (R20, R34). -/
def State.memRead (s : State) (a : Byte) : Byte := s.mem.read a.toNat

/-- `MemWrite(a, 1, v)` (R5, R30): nothing else changes. -/
def State.memWrite (s : State) (a v : Byte) : State := { s with mem := s.mem.write a.toNat v }

/-- Store bytes at ascending addresses from `a`; a byte whose address would be above 255 has no cell and is
dropped. Not an operation of the core: it places an instruction for `State.withFetchWord`. -/
def State.storeBytes : List Byte → Nat → State → State
  | [], _, s => s
  | b :: bs, a, s => State.storeBytes bs (a + 1) (if a ≤ Config.topAddr then s.memWrite (BitVec.ofNat 8 a) b else s)

/-! ### Registers, program counter, flags, output -/

/-- `x[a]` (R10). -/
def State.reg (s : State) (a : RegNum) : Byte := s.regs.get a

/-- `x[a] <- v` (R10): every register, `x[7]` among them, is written like any other (R11). -/
def State.setReg (s : State) (a : RegNum) (v : Byte) : State := { s with regs := s.regs.set a v }

/-- `x[7]`, the stack pointer (R11). -/
def State.sp (s : State) : Byte := s.reg Config.spIndex

/-- `x[7] <- v`. -/
def State.setSp (s : State) (v : Byte) : State := s.setReg Config.spIndex v

/-- `pc <- t` (R13). -/
def State.setPc (s : State) (t : Byte) : State := { s with pc := t }

/-- `E, L, G <- f` (R16). -/
def State.setFlags (s : State) (f : Flags) : State := { s with flags := f }

/-- `Out(v)` (R9, R19): the trace grows at its end. -/
def State.output (s : State) (v : Byte) : State := { s with out := s.out ++ [v] }

/-- `run <- r` (R17). -/
def State.setRun (s : State) (r : RunState) : State := { s with run := r }

/-- The push of R102: SP takes its new value `t`, then `v` is stored at it. -/
def State.push (s : State) (t v : Byte) : State := (s.setSp t).memWrite t v

/-! ### Taking a fault -/

/-- Fault entry (R4, R73, R126): `run <- FAULTED` and the fault record, nothing else. `pc` is the address of the
current instruction (R13), so the opcode byte "fetched at fault_addr" (R18) is the byte at `pc`: the transaction
has written nothing when it raises (assumption log 5). There is no return from a fault (R127): only reset leaves `FAULTED`
(`hostAct .reset`). -/
def State.takeFault (s : State) (r : Raise) : State :=
  { s with
    run := .faulted
    faultRecord := some { cause := r.cause, opcode := s.memRead s.pc, addr := s.pc, info := r.info } }

/-- An instruction is a transaction (R4): its checks run in order; if one raises, the fault is taken in the state
the instruction began in, and if none does, all its writes take effect together. -/
def transact (s : State) (c : Except Raise State) : Host.Outcome State Fault Refusal :=
  match c with
  | .ok t => .next t
  | .error r => .next (s.takeFault r)

/-- The cause code of a fault record (R124, the spec's decision D18). -/
def causeCode : Option FaultRecord → Nat
  | none => 0
  | some f =>
    match f.cause with
    | .invalidInstruction => 1
    | .addressOutOfRange => 2
    | .unsupportedAluOperation => 3

end Sys2Proof.Machine
end

