-- ==== Sys2Proof/Machine/Flags.lean ====
section
/-! DEFINITION. The one flag computation of the machine (R90, R94): COMPARE. ADD and MULT have no carry, overflow
or zero flag (R95). -/

namespace Sys2Proof.Machine

/-- `E <- (x = y)`, `L <- (x < y)`, `G <- (x > y)` on the unsigned values (R94, the spec's decision D13). -/
def compareFlags (x y : Byte) : Flags where
  e := x == y
  l := decide (x.toNat < y.toNat)
  g := decide (y.toNat < x.toNat)

end Sys2Proof.Machine
end

