-- ==== Sys2Proof/Machine/Operands.lean ====
section
/-! DEFINITION. The operand forms and address computations of the spec, each with the check that may raise
`AddressOutOfRange`: `Operand(k)` (R6), `RegIdx(b)` (R7), `Seq(n)` (R8) and the stack-pointer step
(R100, R101, R105, R106). An address is computed as an `Int` and then checked (R41): none ever wraps. -/

namespace Sys2Proof.Machine

/-- `raise AddressOutOfRange(kind, value)` (R122). -/
def addressOutOfRange (k : AddrKind) (v : Int) : Raise :=
  { cause := .addressOutOfRange, info := some (k, v) }

/-- `raise InvalidInstruction()` (R121): the information is empty. -/
def invalidInstruction : Raise := { cause := .invalidInstruction, info := none }

/-- The check of R41 on an address computed upwards: at most 255, or `AddressOutOfRange(MEM, a)` is raised. -/
def checkAddr (a : Nat) : Except Raise Byte :=
  if a ≤ Config.topAddr then .ok (BitVec.ofNat 8 a) else .error (addressOutOfRange .mem a)

/-- The address `pc + k` of the `k`-th operand byte, checked (first two lines of R6's `Operand(k)`). -/
def State.operandAddr (s : State) (k : Nat) : Except Raise Byte := checkAddr (s.pc.toNat + k)

/-- `Operand(k)` (R6). -/
def State.operand (s : State) (k : Nat) : Except Raise Byte := do
  let a ← s.operandAddr k
  return s.memRead a

/-- `RegIdx(b)` (R7): the whole byte is the register number, no bits masked off. -/
def regIdx (b : Byte) : Except Raise RegNum :=
  if h : b.toNat < 8 then .ok ⟨b.toNat, h⟩ else .error (addressOutOfRange .reg b.toNat)

/-- `Seq(n)` (R8): the address of the next sequential instruction. -/
def State.seq (s : State) (n : Nat) : Except Raise Byte := checkAddr (s.pc.toNat + n)

/-- The decrement of a push (R100, R105): with SP at 0x00 the address would be -1, and that is what is raised. -/
def State.spDec (s : State) : Except Raise Byte :=
  if s.sp.toNat = 0 then .error (addressOutOfRange .mem (-1)) else .ok (BitVec.ofNat 8 (s.sp.toNat - 1))

/-- The increment of a pop (R101, R106), of the value `v` that `x[7]` then holds. -/
def spInc (v : Byte) : Except Raise Byte := checkAddr (v.toNat + 1)

end Sys2Proof.Machine
end

