-- ==== Sys2Proof/Machine/Alu.lean ====
section
/-! DEFINITION. The ALU (R90, R91) and the meanings of ADD, MULT and CMP (42_alu.md). -/

namespace Sys2Proof.Machine

/-- The closed set of ALU operations (R91): `UnsupportedAluOperation` cannot arise. -/
inductive AluOp where
  | add
  | mult
  | compare
  deriving DecidableEq, Repr

/-- The ALU's `apply(operation, a, b)` (R90, R95): ADD and MULT compute the exact natural number and keep its low 8
bits, COMPARE writes the flags. -/
def State.alu (s : State) (op : AluOp) (a b : RegNum) : State :=
  match op with
  | .add => s.setReg a (BitVec.ofNat 8 ((s.reg a).toNat + (s.reg b).toNat))
  | .mult => s.setReg a (BitVec.ofNat 8 ((s.reg a).toNat * (s.reg b).toNat))
  | .compare => s.setFlags (compareFlags (s.reg a) (s.reg b))

/-- What the handlers of R92 to R94 have in common: the checks of a format F2R instruction, then one ALU
operation. -/
def aluHandler (op : AluOp) (b1 b2 : Byte) (s : State) : Except Raise State := do
  let _ ← s.operandAddr 1
  let _ ← s.operandAddr 2
  let a ← regIdx b1
  let b ← regIdx b2
  let nx ← s.seq 3
  return (s.alu op a b).setPc nx

/-- `Execute_ADD` (R92). -/
def execAdd (b1 b2 : Byte) (s : State) : Host.Outcome State Fault Refusal :=
  transact s (aluHandler .add b1 b2 s)

/-- `Execute_MULT` (R93). -/
def execMult (b1 b2 : Byte) (s : State) : Host.Outcome State Fault Refusal :=
  transact s (aluHandler .mult b1 b2 s)

/-- `Execute_CMP` (R94). -/
def execCmp (b1 b2 : Byte) (s : State) : Host.Outcome State Fault Refusal :=
  transact s (aluHandler .compare b1 b2 s)

end Sys2Proof.Machine
end

