-- ==== Sys2Proof/Machine/Control.lean ====
section
/-! DEFINITION. The meaning of HLT (40_execution_loop.md). -/

namespace Sys2Proof.Machine

/-- `Execute_HLT` (R71): `run <- HALTED`; `pc` keeps the address of the HLT (the spec's decision D23). No check,
so no fault. -/
def execHlt (s : State) : Host.Outcome State Fault Refusal :=
  transact s (.ok (s.setRun .halted))

end Sys2Proof.Machine
end

