-- ==== Sys2Proof/Machine/LoadOutput.lean ====
section
/-! DEFINITION. The meanings of LDI and PRN (41_load_and_output.md). Both use the register file, never the memory
array (R89). -/

namespace Sys2Proof.Machine

/-- `Execute_LDI` (R85). The operand bytes are the arguments; the two address checks are `Operand(1)`'s and
`Operand(2)`'s. -/
def execLdi (b1 imm : Byte) (s : State) : Host.Outcome State Fault Refusal :=
  transact s do
    let _ ← s.operandAddr 1
    let _ ← s.operandAddr 2
    let a ← regIdx b1
    let nx ← s.seq 3
    return (s.setReg a imm).setPc nx

/-- `Execute_PRN` (R87). -/
def execPrn (b1 : Byte) (s : State) : Host.Outcome State Fault Refusal :=
  transact s do
    let _ ← s.operandAddr 1
    let a ← regIdx b1
    let nx ← s.seq 2
    return (s.output (s.reg a)).setPc nx

end Sys2Proof.Machine
end

