-- ==== Sys2Proof/Machine/Stack.lean ====
section
/-! DEFINITION. The meanings of PUSH and POP (43_stack.md). -/

namespace Sys2Proof.Machine

/-- `Execute_PUSH` (R100): `x[a]` is read AFTER the decrement, so PUSH R7 stores the new SP (the spec's decision
D22; assumption log 4). -/
def execPush (b1 : Byte) (s : State) : Host.Outcome State Fault Refusal :=
  transact s do
    let _ ← s.operandAddr 1
    let a ← regIdx b1
    let t ← s.spDec
    let nx ← s.seq 2
    return (s.push t ((s.setSp t).reg a)).setPc nx

/-- `Execute_POP` (R101): the register is loaded first and SP incremented then, so POP R7 leaves the popped byte
plus one in SP (D22; assumption log 4). -/
def execPop (b1 : Byte) (s : State) : Host.Outcome State Fault Refusal :=
  transact s do
    let _ ← s.operandAddr 1
    let a ← regIdx b1
    let v := s.memRead s.sp
    let t ← spInc ((s.setReg a v).sp)
    let nx ← s.seq 2
    return ((s.setReg a v).setSp t).setPc nx

end Sys2Proof.Machine
end

