-- ==== Sys2Proof/Machine/Transfer.lean ====
section
/-! DEFINITION. The meanings of CALL, RET, JMP, JEQ and JNE (44_control_transfer.md). Every target is the value of
a register, or the byte RET pops, whole (R110). -/

namespace Sys2Proof.Machine

/-- `Execute_CALL` (R105): the return address is `pc + 2`; `x[a]` is read AFTER the push, so CALL R7 jumps to the
new SP (the spec's decision D22; assumption log 4). -/
def execCall (b1 : Byte) (s : State) : Host.Outcome State Fault Refusal :=
  transact s do
    let _ ← s.operandAddr 1
    let a ← regIdx b1
    let t ← s.spDec
    let ret ← s.seq 2
    return (s.push t ret).setPc ((s.push t ret).reg a)

/-- `Execute_RET` (R106). -/
def execRet (s : State) : Host.Outcome State Fault Refusal :=
  transact s do
    let t ← spInc s.sp
    return (s.setSp t).setPc (s.memRead s.sp)

/-- `Execute_JMP` (R107): no `Seq` check. -/
def execJmp (b1 : Byte) (s : State) : Host.Outcome State Fault Refusal :=
  transact s do
    let _ ← s.operandAddr 1
    let a ← regIdx b1
    return s.setPc (s.reg a)

/-- What JEQ and JNE have in common (R108, R109): the operand is fetched and validated whether or not the jump is
taken, and `Seq(2)` is checked only when it is not (the spec's decision D17). -/
def jumpIf (taken : Bool) (b1 : Byte) (s : State) : Except Raise State := do
  let _ ← s.operandAddr 1
  let a ← regIdx b1
  match taken with
  | true => return s.setPc (s.reg a)
  | false =>
    let nx ← s.seq 2
    return s.setPc nx

/-- `Execute_JEQ` (R108): jump if E is set. -/
def execJeq (b1 : Byte) (s : State) : Host.Outcome State Fault Refusal :=
  transact s (jumpIf s.flags.e b1 s)

/-- `Execute_JNE` (R109): jump if E is clear. -/
def execJne (b1 : Byte) (s : State) : Host.Outcome State Fault Refusal :=
  transact s (jumpIf (!s.flags.e) b1 s)

end Sys2Proof.Machine
end

