-- ==== Sys2Proof/Syntax.lean ====
section
/-! DEFINITION. The 13 instructions of the opcode table (rules R50, R55, R61). -/

namespace Sys2Proof

/-- One constructor per row of the opcode table. An operand is the operand BYTE of the instruction, whole
(R51, R52): the spec masks no bits of a register byte and lets a byte above 7 fault when the instruction
runs (R7), so the byte is kept as it stands in memory. -/
inductive Instr where
  /-- `HLT` (R71), format F0. -/
  | hlt
  /-- `RET` (R106), format F0. -/
  | ret
  /-- `PUSH Ra` (R100), format F1. -/
  | push (a : Byte)
  /-- `POP Ra` (R101), format F1. -/
  | pop (a : Byte)
  /-- `PRN Ra` (R87), format F1. -/
  | prn (a : Byte)
  /-- `CALL Ra` (R105), format F1. -/
  | call (a : Byte)
  /-- `JMP Ra` (R107), format F1. -/
  | jmp (a : Byte)
  /-- `JEQ Ra` (R108), format F1. -/
  | jeq (a : Byte)
  /-- `JNE Ra` (R109), format F1. -/
  | jne (a : Byte)
  /-- `LDI Ra,imm` (R85), format F2I. -/
  | ldi (a imm : Byte)
  /-- `ADD Ra,Rb` (R92), format F2R. -/
  | add (a b : Byte)
  /-- `MULT Ra,Rb` (R93), format F2R. -/
  | mult (a b : Byte)
  /-- `CMP Ra,Rb` (R94), format F2R. -/
  | cmp (a b : Byte)
  deriving DecidableEq, Repr

end Sys2Proof
end

