-- ==== Sys2Proof/Decode.lean ====
section
/-! DEFINITION. The decoder of rules R50 to R59 and, after it, the encoder written from the same tables.
One opcode table (`opcode`, the parameter `OPC` of R2) serves both directions, as R55 asks. -/

namespace Sys2Proof

/-- The 13 results of the decoder that are not `Invalid` (R56). -/
inductive Mnemonic where
  | HLT | RET | PUSH | POP | PRN | CALL | JMP | JEQ | JNE | LDI | ADD | MULT | CMP
  deriving DecidableEq, Repr

/-- The four formats of R50. -/
inductive Format where
  | F0 | F1 | F2R | F2I
  deriving DecidableEq, Repr

/-- Why bytes are no instruction: the opcode byte is none of the 13 (R58), or byte number `k` of the
instruction (0 is the opcode byte) is not there. -/
inductive DecodeError where
  | invalidOpcode (o : Byte)
  | missingByte (k : Nat)
  deriving DecidableEq, Repr

/-- All 13 mnemonics, in the order of R55's table. -/
def Mnemonic.all : List Mnemonic :=
  [.HLT, .RET, .PUSH, .POP, .PRN, .CALL, .JMP, .JEQ, .JNE, .LDI, .ADD, .MULT, .CMP]

/-- The opcode map `OPC` (R55, the spec's decision D1; assumption log 3). -/
def opcode : Mnemonic → Byte
  | .HLT => 0x01#8
  | .RET => 0x11#8
  | .PUSH => 0x45#8
  | .POP => 0x46#8
  | .PRN => 0x47#8
  | .CALL => 0x50#8
  | .JMP => 0x54#8
  | .JEQ => 0x55#8
  | .JNE => 0x56#8
  | .LDI => 0x82#8
  | .ADD => 0xA0#8
  | .MULT => 0xA2#8
  | .CMP => 0xA7#8

/-- The format column of R55. -/
def Mnemonic.format : Mnemonic → Format
  | .HLT | .RET => .F0
  | .PUSH | .POP | .PRN | .CALL | .JMP | .JEQ | .JNE => .F1
  | .ADD | .MULT | .CMP => .F2R
  | .LDI => .F2I

/-- How many operand bytes follow the opcode byte (R50). -/
def Format.operandCount : Format → Nat
  | .F0 => 0
  | .F1 => 1
  | .F2R => 2
  | .F2I => 2

/-- The length in bytes, from the mnemonic and not from opcode bits (R57, D29). -/
def Mnemonic.length (m : Mnemonic) : Nat := 1 + m.format.operandCount

/-- R56: the whole opcode byte is compared with the 13 values; `none` is the result `Invalid`. -/
def decodeOpcode (o : Byte) : Option Mnemonic := Mnemonic.all.find? fun m => opcode m == o

/-- Assemble an instruction from a mnemonic and the bytes after its opcode (R50, R54), with the bytes that
are left over. A missing operand byte is reported by its number. -/
def takeOperands : Mnemonic → List Byte → Except DecodeError (Instr × List Byte)
  | .HLT, rest => .ok (.hlt, rest)
  | .RET, rest => .ok (.ret, rest)
  | .PUSH, a :: rest => .ok (.push a, rest)
  | .POP, a :: rest => .ok (.pop a, rest)
  | .PRN, a :: rest => .ok (.prn a, rest)
  | .CALL, a :: rest => .ok (.call a, rest)
  | .JMP, a :: rest => .ok (.jmp a, rest)
  | .JEQ, a :: rest => .ok (.jeq a, rest)
  | .JNE, a :: rest => .ok (.jne a, rest)
  | .LDI, a :: imm :: rest => .ok (.ldi a imm, rest)
  | .ADD, a :: b :: rest => .ok (.add a b, rest)
  | .MULT, a :: b :: rest => .ok (.mult a b, rest)
  | .CMP, a :: b :: rest => .ok (.cmp a b, rest)
  | .PUSH, [] | .POP, [] | .PRN, [] | .CALL, [] | .JMP, [] | .JEQ, [] | .JNE, [] => .error (.missingByte 1)
  | .LDI, [] | .ADD, [] | .MULT, [] | .CMP, [] => .error (.missingByte 1)
  | .LDI, [_] | .ADD, [_] | .MULT, [_] | .CMP, [_] => .error (.missingByte 2)

/-- Decode the instruction at the head of a list of bytes: total, and rejecting by name (R56, R58). -/
def decode : List Byte → Except DecodeError (Instr × List Byte)
  | [] => .error (.missingByte 0)
  | o :: rest =>
    match decodeOpcode o with
    | none => .error (.invalidOpcode o)
    | some m => takeOperands m rest

/-- Which row of the opcode table an instruction is. -/
def Instr.mnemonic : Instr → Mnemonic
  | .hlt => .HLT
  | .ret => .RET
  | .push _ => .PUSH
  | .pop _ => .POP
  | .prn _ => .PRN
  | .call _ => .CALL
  | .jmp _ => .JMP
  | .jeq _ => .JEQ
  | .jne _ => .JNE
  | .ldi _ _ => .LDI
  | .add _ _ => .ADD
  | .mult _ _ => .MULT
  | .cmp _ _ => .CMP

/-- The operand bytes of an instruction, at ascending addresses (R31, R50). -/
def Instr.operandBytes : Instr → List Byte
  | .hlt => []
  | .ret => []
  | .push a => [a]
  | .pop a => [a]
  | .prn a => [a]
  | .call a => [a]
  | .jmp a => [a]
  | .jeq a => [a]
  | .jne a => [a]
  | .ldi a imm => [a, imm]
  | .add a b => [a, b]
  | .mult a b => [a, b]
  | .cmp a b => [a, b]

/-- The bytes of an instruction: its opcode byte, then its operand bytes (R50, R55). -/
def encode (i : Instr) : List Byte := opcode i.mnemonic :: i.operandBytes

/-- The three bytes, first at the lowest address, of a table word of `nbits` bits: byte 0 is bits 7..0, byte 1
is bits 15..8, byte 2 is bits 23..16, and every bit above `nbits` is 0 (three bytes is the longest
instruction). -/
def tableBytes (nbits w : Nat) : List Byte :=
  let v := w % 2 ^ nbits
  [BitVec.ofNat 8 v, BitVec.ofNat 8 (v / 256), BitVec.ofNat 8 (v / 65536)]

/-- The instruction the decoder reads from an instruction whose bits are `w`, numbered as the opcode table
numbers them. -/
def decodeTableWord (nbits w : Nat) : Option Instr :=
  match decode (tableBytes nbits w) with
  | .ok (i, _) => some i
  | .error _ => none

end Sys2Proof
end

