-- ==== Sys2Proof/Machine/Fetch.lean ====
section
/-! DEFINITION. Steps 1 and 2 of the execution loop (R70): the fetch of the opcode byte at `pc` and of the operand
bytes after it, and what a step raises when they are no instruction. -/

namespace Sys2Proof.Machine

/-- The at most two bytes after the opcode byte that memory holds (R6, R50). Reads have no side effect (R33), so
an instruction shorter than three bytes sees no difference from fetching its own bytes only. -/
def State.bytesAfterPc (s : State) : List Byte :=
  match s.operand 1, s.operand 2 with
  | .ok b1, .ok b2 => [b1, b2]
  | .ok b1, .error _ => [b1]
  | .error _, _ => []

/-- What a step raises when the bytes at `pc` are no instruction: an opcode byte that is none of the 13 is an
invalid instruction (R73, R121); an operand byte past the top of memory is `AddressOutOfRange(MEM, pc + k)` (R6). -/
def State.decodeRaise (s : State) : DecodeError → Raise
  | .invalidOpcode _ => invalidInstruction
  | .missingByte k => addressOutOfRange .mem (s.pc.toNat + k)

/-- Fetch and decode the instruction at `pc` (R70). -/
def fetchInstr (s : State) : Except Raise Instr :=
  match decode (s.memRead s.pc :: s.bytesAfterPc) with
  | .ok (i, _) => .ok i
  | .error e => .error (s.decodeRaise e)

end Sys2Proof.Machine
end

