-- ==== Sys2Proof/Machine/Step.lean ====
section
/-! DEFINITION. One step of the execution loop (R70). -/

namespace Sys2Proof.Machine

/-- While `run = RUNNING` the core fetches, decodes and executes one instruction, or takes the fault; when `run` is
anything else it does nothing (R70). -/
def step (s : State) : Host.Outcome State Fault Refusal :=
  match s.run with
  | .running =>
    match fetchInstr s with
    | .ok i => exec i s
    | .error r => .next (s.takeFault r)
  | .idle | .halted | .faulted => .next s

/-- `s` with the instruction whose bits are `w` loaded where `step` fetches next, and the run started: what the
host's `Load` (R143) and `Start` (R144) do for a program (assumption log 6). -/
def State.withFetchWord (s : State) (nbits w : Nat) : State :=
  (State.storeBytes (tableBytes nbits w) s.pc.toNat s).setRun .running

end Sys2Proof.Machine
end

