-- ==== Sys2Proof/Machine/HostPort.lean ====
section
/-! DEFINITION. What the world outside the core can do to it (R142 to R147): the four host actions, each in the run
states that allow it, and the loading and starting of a program image. -/

namespace Sys2Proof.Machine

/-- The host's four actions (R142). -/
inductive HostAction where
  | reset
  | load (a v : Byte)
  | start
  | observe
  deriving DecidableEq, Repr

/-- The effect of a host action, `none` where the host may not do it (R142, the spec's decision D19). `Start` in
`HALTED` or `FAULTED` has no effect (R144); in `RUNNING` the host has no move but `Reset` (R145). -/
def hostAct : HostAction → State → Option State
  | .reset, _ => some State.reset
  | .load a v, s =>
    match s.run with
    | .idle => some (s.memWrite a v)
    | .running | .halted | .faulted => none
  | .start, s =>
    match s.run with
    | .idle => some (s.setRun .running)
    | .halted | .faulted => some s
    | .running => none
  | .observe, s =>
    match s.run with
    | .idle | .halted | .faulted => some s
    | .running => none

/-- Write bytes at increasing addresses from `a`, by `Load` actions (R143); an address above 255 cannot be written. -/
def loadFrom : List Byte → Nat → State → Option State
  | [], _, s => some s
  | b :: bs, a, s => if a ≤ Config.topAddr then (hostAct (.load (BitVec.ofNat 8 a) b) s).bind (loadFrom bs (a + 1)) else none

/-- Load a program image: byte number `i` goes to `mem[i]`; an image of more than 256 bytes cannot be loaded (R143). -/
def loadImage (image : List Byte) (s : State) : Option State := loadFrom image 0 s

/-- How a program comes to run (R140, R143, R144): reset, load, start. -/
def boot (image : List Byte) : Option State := (loadImage image State.reset).bind (hostAct .start)

/-- One move of the whole system: a step of the core, or an action of the host. -/
inductive Move where
  | core
  | host (h : HostAction)
  deriving DecidableEq, Repr

/-- The state after a move, if the move is possible. -/
def move : Move → State → Option State
  | .core, s =>
    match step s with
    | .next t => some t
    | .fault _ => none
    | .refused _ => none
  | .host h, s => hostAct h s

end Sys2Proof.Machine
end

