-- ==== Sys2Proof/WellFormed.lean ====
section
/-! DEFINITION. Which instruction terms the assembly notation of rule R61 can write: every register operand
is one of R0..R7 (R52) and an immediate is any byte (R53, R59). A term outside it is still an encoding the
hardware decodes; running it raises `AddressOutOfRange` (R7). -/

namespace Sys2Proof

/-- R52: the register bytes that name a register are 0..7. -/
def regByteOk (b : Byte) : Bool := b.toNat ≤ 7

/-- The register operand bytes of an instruction, first to last (format column of R50). -/
def Instr.regOperands : Instr → List Byte
  | .hlt => []
  | .ret => []
  | .push a => [a]
  | .pop a => [a]
  | .prn a => [a]
  | .call a => [a]
  | .jmp a => [a]
  | .jeq a => [a]
  | .jne a => [a]
  | .ldi a _ => [a]
  | .add a b => [a, b]
  | .mult a b => [a, b]
  | .cmp a b => [a, b]

/-- Every register operand names a register. -/
def Instr.wellFormed (i : Instr) : Bool := i.regOperands.all regByteOk

end Sys2Proof
end

