-- ==== Sys2Proof/Machine/Tables.lean ====
section
/-! DEFINITION. The spec's summary tables over all 13 instructions, written from those tables and not from the
meanings: registers read and written (R12), `pc` after the instruction (R14), the byte stored to (R40) and the
first check that fails (R122, R125). Claims compare `exec` with them; `exec` does not use them. -/

namespace Sys2Proof.Machine

/-- The operand byte that names register `r` (R52). -/
def regByte (r : RegNum) : Byte := BitVec.ofNat 8 r.val

/-- The register a byte 0..7 names. (A byte above 7 names none; an instruction holding one writes nothing.) -/
def regOf (b : Byte) : RegNum := Fin.ofNat 8 b.toNat

/-- The "reads" column of R12. -/
def regsRead (s : State) : Instr → List RegNum
  | .hlt => []
  | .ret => [7]
  | .push a => [7, regOf a]
  | .pop _ => [7]
  | .prn a => [regOf a]
  | .call a => [7, regOf a]
  | .jmp a => [regOf a]
  | .jeq a => if s.flags.e then [regOf a] else []
  | .jne a => if s.flags.e then [] else [regOf a]
  | .ldi _ _ => []
  | .add a b => [regOf a, regOf b]
  | .mult a b => [regOf a, regOf b]
  | .cmp a b => [regOf a, regOf b]

/-- The "writes" column of R12. -/
def regsWritten : Instr → List RegNum
  | .hlt => []
  | .ret => [7]
  | .push _ => [7]
  | .pop a => [regOf a, 7]
  | .prn _ => []
  | .call _ => [7]
  | .jmp _ => []
  | .jeq _ => []
  | .jne _ => []
  | .ldi a _ => [regOf a]
  | .add a _ => [regOf a]
  | .mult a _ => [regOf a]
  | .cmp _ _ => []

/-- The one byte an instruction stores to (R20, R40): `x[7]` after the decrement, for PUSH and CALL. The address is
the one their meanings compute, `State.spDec`. -/
def storeAddr (s : State) : Instr → Option Byte
  | .push _ => s.spDec.toOption
  | .call _ => s.spDec.toOption
  | .hlt => none
  | .ret => none
  | .pop _ => none
  | .prn _ => none
  | .jmp _ => none
  | .jeq _ => none
  | .jne _ => none
  | .ldi _ _ => none
  | .add _ _ => none
  | .mult _ _ => none
  | .cmp _ _ => none

/-- The table of R14: `pc` after an instruction that raises nothing, as an exact address. CALL's target is read
after the push (R105), which matters for CALL R7 only. -/
def pcAfter (s : State) : Instr → Int
  | .hlt => s.pc.toNat
  | .ret => (s.memRead s.sp).toNat
  | .push _ => s.pc.toNat + 2
  | .pop _ => s.pc.toNat + 2
  | .prn _ => s.pc.toNat + 2
  | .call a => if regOf a = 7 then (s.sp.toNat : Int) - 1 else (s.reg (regOf a)).toNat
  | .jmp a => (s.reg (regOf a)).toNat
  | .jeq a => if s.flags.e then (s.reg (regOf a)).toNat else s.pc.toNat + 2
  | .jne a => if s.flags.e then s.pc.toNat + 2 else (s.reg (regOf a)).toNat
  | .ldi _ _ => s.pc.toNat + 3
  | .add _ _ => s.pc.toNat + 3
  | .mult _ _ => s.pc.toNat + 3
  | .cmp _ _ => s.pc.toNat + 3

/-- The stack-pointer step of PUSH, POP, CALL and RET as an exact number (R41, R122): the new value of SP, in range
or not. -/
def spStep (s : State) : Instr → Option Int
  | .push _ => some ((s.sp.toNat : Int) - 1)
  | .call _ => some ((s.sp.toNat : Int) - 1)
  | .pop a => some ((if regOf a = 7 then s.memRead s.sp else s.sp).toNat + 1)
  | .ret => some (s.sp.toNat + 1)
  | .hlt => none
  | .prn _ => none
  | .jmp _ => none
  | .jeq _ => none
  | .jne _ => none
  | .ldi _ _ => none
  | .add _ _ => none
  | .mult _ _ => none
  | .cmp _ _ => none

/-- Which instructions use their sequential address (R8): every non-jumping one, a not-taken JEQ or JNE, and CALL. -/
def usesSeq (s : State) : Instr → Bool
  | .hlt => false
  | .ret => false
  | .push _ => true
  | .pop _ => true
  | .prn _ => true
  | .call _ => true
  | .jmp _ => false
  | .jeq _ => !s.flags.e
  | .jne _ => s.flags.e
  | .ldi _ _ => true
  | .add _ _ => true
  | .mult _ _ => true
  | .cmp _ _ => true

/-- The information of the one fault reported for an instruction, in the priority order of R125 (items 2 to 5), or
`none` if every check passes. The values are those of R122's table: 256, the register byte, -1 or 256, and 256. -/
def firstFault (s : State) (i : Instr) : Option (AddrKind × Int) :=
  if s.pc.toNat + i.mnemonic.format.operandCount > 255 then some (.mem, 256)
  else
    match i.regOperands.find? (fun b => 7 < b.toNat) with
    | some b => some (.reg, b.toNat)
    | none =>
      match spStep s i with
      | some v =>
        if v < 0 ∨ 255 < v then some (.mem, v)
        else if usesSeq s i ∧ s.pc.toNat + i.mnemonic.length > 255 then some (.mem, 256)
        else none
      | none => if usesSeq s i ∧ s.pc.toNat + i.mnemonic.length > 255 then some (.mem, 256) else none

end Sys2Proof.Machine
end

