-- ==== Sys2Proof/Safety.lean ====
section
/-! DEFINITION. The terms claims are stated in: what two states have in common (frames), the state a fault leaves,
the invariant of the machine, and the states the whole system can reach. -/

namespace Sys2Proof.Machine

/-! ### Frames -/

/-- Every byte of memory reads the same. -/
def SameMemory (s t : State) : Prop := ∀ a : Byte, t.memRead a = s.memRead a

/-- Every byte of memory but the one at `d` reads the same. -/
def SameMemoryExcept (d : Byte) (s t : State) : Prop := ∀ a : Byte, a ≠ d → t.memRead a = s.memRead a

/-- Every register that is not listed is the same. -/
def SameRegsExcept (rs : List RegNum) (s t : State) : Prop := ∀ r : RegNum, r ∉ rs → t.reg r = s.reg r

/-- The run state and the fault record are the same. -/
def SameRun (s t : State) : Prop := t.run = s.run ∧ t.faultRecord = s.faultRecord

/-- The state a fault leaves (R18, R126), written out: `run` and the record, everything else as it was. -/
def faulted (s : State) (cause : FaultCause) (info : Option (AddrKind × Int)) : State :=
  { s with
    run := .faulted
    faultRecord := some { cause := cause, opcode := s.memRead s.pc, addr := s.pc, info := info } }

/-- The same change made to the next state of an outcome. -/
def mapNext (f : State → State) : Host.Outcome State Fault Refusal → Host.Outcome State Fault Refusal
  | .next t => .next (f t)
  | .fault r => .fault r
  | .refused r => .refused r

/-- `k` steps of the core. -/
def runSteps : Nat → State → Host.Outcome State Fault Refusal
  | 0, s => .next s
  | k + 1, s =>
    match step s with
    | .next t => runSteps k t
    | .fault r => .fault r
    | .refused r => .refused r

/-- What the step from `t` does is decided by the memory of `s` with `v` stored at `d`: `t` holds exactly those
bytes, and its step runs the instruction they spell out at `t.pc` (opcode byte and operand bytes alike), or faults on
an operand byte past the top of memory, or on an opcode byte that is none of the 13. -/
structure FetchSeesStore (s t : State) (d v : Byte) : Prop where
  memory : ∀ a, t.memRead a = if a = d then v else s.memRead a
  runs : ∀ m : Mnemonic, (if t.pc = d then v else s.memRead t.pc) = opcode m →
    t.pc.toNat + m.format.operandCount ≤ 255 →
    ∃ i : Instr, i.mnemonic = m ∧ step t = exec i t ∧
      ∀ (k : Nat) (h : k < (encode i).length),
        (encode i)[k] = if BitVec.ofNat 8 (t.pc.toNat + k) = d then v else s.memRead (BitVec.ofNat 8 (t.pc.toNat + k))
  pastTop : ∀ m : Mnemonic, (if t.pc = d then v else s.memRead t.pc) = opcode m →
    255 < t.pc.toNat + m.format.operandCount → step t = .next (faulted t .addressOutOfRange (some (.mem, 256)))
  invalid : (∀ m : Mnemonic, (if t.pc = d then v else s.memRead t.pc) ≠ opcode m) →
    step t = .next { t with
      run := .faulted
      faultRecord := some
        { cause := .invalidInstruction, opcode := if t.pc = d then v else s.memRead t.pc, addr := t.pc, info := none } }

/-! ### The invariant -/

/-- What a fault record can say (R18, R121 to R123): an invalid instruction has no information and its opcode is
none of the 13; an address fault has an opcode that is, and carries -1 or 256 as a memory address or a register
byte above 7; the ALU cause is never recorded. -/
def FaultRecord.legal (f : FaultRecord) : Prop :=
  match f.cause with
  | .invalidInstruction => f.info = none ∧ decodeOpcode f.opcode = none
  | .addressOutOfRange =>
    (decodeOpcode f.opcode).isSome = true ∧
      (f.info = some (.mem, -1) ∨ f.info = some (.mem, 256) ∨ ∃ b : Byte, 7 < b.toNat ∧ f.info = some (AddrKind.reg, (b.toNat : Int)))
  | .unsupportedAluOperation => False

/-- The invariant of the machine. -/
structure State.Inv (s : State) : Prop where
  /-- Memory is in its canonical form (R20). -/
  memory : s.mem.wf
  /-- At most one flag is set (R96; none is before the first CMP, R23). -/
  flags : (s.flags.e && s.flags.l) = false ∧ (s.flags.e && s.flags.g) = false ∧ (s.flags.l && s.flags.g) = false
  /-- A record is there exactly while `run = FAULTED` (R18). -/
  recorded : s.faultRecord.isSome = true ↔ s.run = .faulted
  /-- It names the instruction `pc` still addresses and the opcode byte that still stands there (R126), and is one
  the spec's rules can write. -/
  record : ∀ f, s.faultRecord = some f → f.addr = s.pc ∧ f.opcode = s.memRead s.pc ∧ f.legal
  /-- A halted core stopped at an HLT (R14, R71). -/
  halted : s.run = .halted → s.memRead s.pc = opcode .HLT
  /-- Before `Start`, only memory can differ from reset (R143: the host writes memory only). -/
  idle : s.run = .idle → s = { State.reset with mem := s.mem }

/-- The states the core and its host can reach from reset (R140, R142). -/
inductive Reach : State → Prop where
  | reset : Reach State.reset
  | move {s t : State} (m : Move) : Reach s → Sys2Proof.Machine.move m s = some t → Reach t

end Sys2Proof.Machine
end

