-- ==== Sys2Proof/Certificates/Slice0/Obligations.lean ====
section
/-! DEFINITION. The statements for the provers. Each docstring names the rule of spec/ it formalises, and says where
a clause rests on one of the spec's own decisions (92_eei_decisions.md). Registers are named by their numbers
(`regByte r` is the operand byte that names `r`), so no form of an instruction is shut out: the forms with a byte
above 7 are `RegisterByteAboveSevenFaults`. -/

open Sys2Proof Sys2Proof.Machine

/-! ### Reset, decoding and the loop -/

/-- R23, R140: the state after reset. The values of `x[0..6]` and of the flags are the spec's decisions D9 and D10
(assumption log 1 and 2). -/
def Obligations.ResetState : Prop :=
  (∀ a : Byte, State.reset.memRead a = 0x00#8) ∧ State.reset.reg 7 = 0xF4#8 ∧
    (∀ r : RegNum, r ≠ 7 → State.reset.reg r = 0x00#8) ∧ State.reset.pc = 0x00#8 ∧
    State.reset.flags = { e := false, l := false, g := false } ∧ State.reset.run = .idle ∧
    State.reset.faultRecord = none ∧ State.reset.out = []

/-- R55: instructions written out bit by bit from the opcode table's encodings decode to what they stand for. The
opcode values are the spec's decision D1 (assumption log 3). -/
def Obligations.SpecWordsDecode : Prop :=
  decode [0b00000001#8] = .ok (.hlt, []) ∧ decode [0b00010001#8] = .ok (.ret, []) ∧
    decode [0b01000101#8, 0b00000011#8] = .ok (.push 3, []) ∧
    decode [0b01010100#8, 0b00000110#8, 0xFF#8] = .ok (.jmp 6, [0xFF#8]) ∧
    decode [0b10000010#8, 0b00000111#8, 0b11110000#8] = .ok (.ldi 7 0xF0, []) ∧
    decode [0b10100000#8, 0b00000001#8, 0b00000010#8] = .ok (.add 1 2, []) ∧
    decode [0b10100111#8, 0b00000100#8, 0b00000101#8] = .ok (.cmp 4 5, []) ∧
    decode [0b00000000#8] = .error (.invalidOpcode 0)

/-- R56: the decoder compares all 8 bits of the opcode byte with the 13 values, and every one of the other 243 is
`Invalid`. -/
def Obligations.OpcodeDecoderTotal : Prop :=
  (∀ (o : Byte) (m : Mnemonic), decodeOpcode o = some m ↔ o = opcode m) ∧
    ((List.range 256).filter fun n => (decodeOpcode (BitVec.ofNat 8 n)).isNone).length = 243

/-- R50, R51, R55: decoding and encoding are inverse to each other, for every instruction at every operand value and
for every list of bytes: a list decodes to an instruction exactly when it begins with that instruction's bytes. -/
def Obligations.DecodeIffEncode : Prop :=
  ∀ (bs rest : List Byte) (i : Instr), decode bs = .ok (i, rest) ↔ bs = encode i ++ rest

/-- R70, R72: a running core whose bytes at `pc` decode to an instruction executes exactly that instruction. -/
def Obligations.StepRunsDecoded : Prop :=
  ∀ (s : State) (i : Instr) (rest : List Byte), s.run = .running →
    decode (s.memRead s.pc :: s.bytesAfterPc) = .ok (i, rest) → step s = exec i s

/-- R50, R54, R70: the same from the bytes in memory: if an instruction's bytes stand at `pc` and the addresses after
it, `step` executes it. -/
def Obligations.StepRunsBytesAtPc : Prop :=
  ∀ (s : State) (i : Instr), s.run = .running → s.pc.toNat + (encode i).length ≤ 256 →
    (∀ (k : Nat) (h : k < (encode i).length), s.memRead (BitVec.ofNat 8 (s.pc.toNat + k)) = (encode i)[k]) →
    step s = exec i s

/-- The word the opcode table's numbering gives (assumption log 6): placed where the next fetch reads, it is the
instruction the next step runs. -/
def Obligations.FetchWordRuns : Prop :=
  ∀ (s : State) (nbits w : Nat) (i : Instr), decodeTableWord nbits w = some i → s.pc.toNat ≤ 253 →
    step (s.withFetchWord nbits w) = exec i (s.withFetchWord nbits w)

/-- R73: an opcode byte that is none of the 13 raises `InvalidInstruction`, with the byte and its address recorded
and nothing else changed. -/
def Obligations.InvalidOpcodeFaults : Prop :=
  ∀ s : State, s.run = .running → (∀ m : Mnemonic, s.memRead s.pc ≠ opcode m) →
    step s = .next { s with
      run := .faulted
      faultRecord := some
        { cause := .invalidInstruction, opcode := s.memRead s.pc, addr := s.pc, info := none } }

/-- R70 says that the core does nothing when `run` is anything but `RUNNING`, and R76 that no step is enabled. That
`step` then answers the SAME STATE as its next state is the model's choice (assumption log 14, DEDUCED). -/
def Obligations.StoppedCoreDoesNothing : Prop :=
  ∀ s : State, s.run ≠ .running → step s = .next s

/-- R76, R127 (the spec's decision D8, assumption log 13): `HALTED` and `FAULTED` are terminal: however many steps are
taken, nothing changes. That there is a step at all in a stopped core, to the same state, is the model's choice
(assumption log 14, DEDUCED). -/
def Obligations.TerminalStatesStay : Prop :=
  ∀ (s : State) (k : Nat), s.run = .halted ∨ s.run = .faulted → runSteps k s = .next s

/-- Every step of the model ends in a next state; no instruction, byte or operand stops it. This is the model's form of
the spec, not its words: a fault (R120, R126) is a next state (assumption log 15, DEDUCED), and a stopped core steps to
itself (assumption log 14, DEDUCED). -/
def Obligations.EveryStepAnswersNext : Prop :=
  ∀ s : State, ∃ t, step s = .next t

/-- R17, R70, R71: a running core stays running, halts or faults, and it halts exactly when the byte at `pc` is the
HLT opcode. -/
def Obligations.RunTransitions : Prop :=
  ∀ s t : State, s.run = .running → step s = .next t →
    t.run ≠ .idle ∧ (t.run = .halted ↔ s.memRead s.pc = opcode .HLT)

/-- R75, with R107's corner case: a JMP to its own address is a loop that never stops, whatever the number of steps. -/
def Obligations.JumpToItselfNeverStops : Prop :=
  ∀ (s : State) (r : RegNum) (k : Nat), s.run = .running → s.pc.toNat ≤ 254 →
    s.memRead s.pc = opcode .JMP → s.memRead (s.pc + 1) = regByte r → s.reg r = s.pc →
    runSteps k s = .next s

/-! ### HLT, LDI, PRN -/

/-- R71: HLT completes in every state, writes `run` and nothing else; `pc` stays (the spec's decision D23). -/
def Obligations.HltResult : Prop :=
  ∀ s : State, exec .hlt s = .next { s with run := .halted }

/-- R86: after LDI r,v the register holds v and `pc` advances by 3, with no other register, flag or memory cell
changed; with `pc` in 0xFD..0xFF it faults (a check that rests on the spec's decisions D3 and D5,
assumption log 8). -/
def Obligations.LdiResult : Prop :=
  ∀ (r : RegNum) (v : Byte) (s : State),
    (s.pc.toNat ≤ 0xFC → ∃ t, exec (.ldi (regByte r) v) s = .next t ∧ t.reg r = v ∧
      t.pc.toNat = s.pc.toNat + 3 ∧ SameRegsExcept [r] s t ∧ t.flags = s.flags ∧ SameMemory s t ∧
      SameRun s t ∧ t.out = s.out) ∧
    (0xFD ≤ s.pc.toNat →
      exec (.ldi (regByte r) v) s = .next (faulted s .addressOutOfRange (some (.mem, 256))))

/-- R87, R9, R19: PRN appends the register's byte to the output trace, advances `pc` by 2 and changes nothing else. -/
def Obligations.PrnResult : Prop :=
  ∀ (r : RegNum) (s : State), s.pc.toNat ≤ 0xFD →
    ∃ t, exec (.prn (regByte r)) s = .next t ∧ t.out = s.out ++ [s.reg r] ∧ t.pc.toNat = s.pc.toNat + 2 ∧
      SameRegsExcept [] s t ∧ t.flags = s.flags ∧ SameMemory s t ∧ SameRun s t

/-! ### ALU -/

/-- R92, R95: ADD leaves `(x[a] + x[b]) mod 256` in `x[a]` (the width is the spec's decision D2), for `a = b` and for
R7 as for any register, with its frame. -/
def Obligations.AddResult : Prop :=
  ∀ (a b : RegNum) (s : State), s.pc.toNat ≤ 0xFC →
    ∃ t, exec (.add (regByte a) (regByte b)) s = .next t ∧
      (t.reg a).toNat = ((s.reg a).toNat + (s.reg b).toNat) % 256 ∧ t.pc.toNat = s.pc.toNat + 3 ∧
      SameRegsExcept [a] s t ∧ t.flags = s.flags ∧ SameMemory s t ∧ SameRun s t ∧ t.out = s.out

/-- R93, R95: MULT leaves `(x[a] * x[b]) mod 256` in `x[a]` (D2), with its frame. -/
def Obligations.MultResult : Prop :=
  ∀ (a b : RegNum) (s : State), s.pc.toNat ≤ 0xFC →
    ∃ t, exec (.mult (regByte a) (regByte b)) s = .next t ∧
      (t.reg a).toNat = ((s.reg a).toNat * (s.reg b).toNat) % 256 ∧ t.pc.toNat = s.pc.toNat + 3 ∧
      SameRegsExcept [a] s t ∧ t.flags = s.flags ∧ SameMemory s t ∧ SameRun s t ∧ t.out = s.out

/-- R94: CMP writes all three flags from the unsigned comparison (the spec's decision D13) and advances `pc` by 3;
registers and memory are unchanged. -/
def Obligations.CmpResult : Prop :=
  ∀ (a b : RegNum) (s : State), s.pc.toNat ≤ 0xFC →
    ∃ t, exec (.cmp (regByte a) (regByte b)) s = .next t ∧
      (t.flags.e = true ↔ s.reg a = s.reg b) ∧ (t.flags.l = true ↔ (s.reg a).toNat < (s.reg b).toNat) ∧
      (t.flags.g = true ↔ (s.reg b).toNat < (s.reg a).toNat) ∧ t.pc.toNat = s.pc.toNat + 3 ∧
      SameRegsExcept [] s t ∧ SameMemory s t ∧ SameRun s t ∧ t.out = s.out

/-- R96: after any CMP exactly one of E, L, G is set, and it is E when the values are equal. -/
def Obligations.CmpSetsExactlyOneFlag : Prop :=
  ∀ (a b : RegNum) (s : State), s.pc.toNat ≤ 0xFC →
    ∃ t, exec (.cmp (regByte a) (regByte b)) s = .next t ∧
      (t.flags = { e := true, l := false, g := false } ∨ t.flags = { e := false, l := true, g := false } ∨
        t.flags = { e := false, l := false, g := true }) ∧
      (s.reg a = s.reg b ↔ t.flags = { e := true, l := false, g := false })

/-- R97: ADD Ra,Rb leaves in `x[a]` what ADD Rb,Ra leaves in `x[b]`, and MULT likewise (the modulus is the spec's
decision D2, assumption log 11). -/
def Obligations.AddMultCommute : Prop :=
  ∀ (a b : RegNum) (s : State), s.pc.toNat ≤ 0xFC →
    (∃ t u, exec (.add (regByte a) (regByte b)) s = .next t ∧ exec (.add (regByte b) (regByte a)) s = .next u ∧
      t.reg a = u.reg b ∧ (t.reg a).toNat = ((s.reg a).toNat + (s.reg b).toNat) % 256) ∧
    (∃ t u, exec (.mult (regByte a) (regByte b)) s = .next t ∧ exec (.mult (regByte b) (regByte a)) s = .next u ∧
      t.reg a = u.reg b ∧ (t.reg a).toNat = ((s.reg a).toNat * (s.reg b).toNat) % 256)

/-- R16: the flags are written only by CMP (by no other instruction, and by no step that fetches another opcode
byte), which writes all three whatever they were; JEQ and JNE read E only; no
instruction reads L or G. -/
def Obligations.FlagsOnlyByCmp : Prop :=
  (∀ (i : Instr) (s t : State), i.mnemonic ≠ .CMP → exec i s = .next t → t.flags = s.flags) ∧
  (∀ s t : State, s.memRead s.pc ≠ opcode .CMP → step s = .next t → t.flags = s.flags) ∧
  (∀ (a b : RegNum) (s : State) (f : Flags), s.pc.toNat ≤ 0xFC →
    exec (.cmp (regByte a) (regByte b)) (s.setFlags f) = exec (.cmp (regByte a) (regByte b)) s) ∧
  (∀ (i : Instr) (s : State) (f : Flags), i.mnemonic ≠ .CMP → i.mnemonic ≠ .JEQ → i.mnemonic ≠ .JNE →
    exec i (s.setFlags f) = mapNext (·.setFlags f) (exec i s)) ∧
  (∀ (i : Instr) (s : State) (l g : Bool), i.mnemonic ≠ .CMP →
    exec i (s.setFlags { e := s.flags.e, l := l, g := g }) =
      mapNext (·.setFlags { e := s.flags.e, l := l, g := g }) (exec i s))

/-! ### Stack -/

/-- R100, R102: PUSH decrements SP and stores `x[a]`, read after the decrement, at the new SP; PUSH R7 stores the new
SP (the spec's decision D22, assumption log 4). Only that byte of memory changes. -/
def Obligations.PushResult : Prop :=
  ∀ (r : RegNum) (s : State), s.pc.toNat ≤ 0xFD → 0 < s.sp.toNat →
    ∃ t, exec (.push (regByte r)) s = .next t ∧ t.sp.toNat + 1 = s.sp.toNat ∧
      (∀ d, storeAddr s (.push (regByte r)) = some d →
        d = t.sp ∧ t.memRead d = (if r = 7 then t.sp else s.reg r) ∧ SameMemoryExcept d s t) ∧
      (storeAddr s (.push (regByte r))).isSome = true ∧
      t.pc.toNat = s.pc.toNat + 2 ∧ SameRegsExcept [7] s t ∧ t.flags = s.flags ∧ SameRun s t ∧ t.out = s.out

/-- R101, R102: POP loads `x[a]` with the byte at SP and then increments SP; POP R7 leaves the popped byte plus one in
SP (D22, assumption log 4). Memory is not written. -/
def Obligations.PopResult : Prop :=
  ∀ (r : RegNum) (s : State), s.pc.toNat ≤ 0xFD →
    (r ≠ 7 → s.sp.toNat < 255 → ∃ t, exec (.pop (regByte r)) s = .next t ∧ t.reg r = s.memRead s.sp ∧
      t.sp.toNat = s.sp.toNat + 1 ∧ t.pc.toNat = s.pc.toNat + 2 ∧ SameRegsExcept [r, 7] s t ∧
      t.flags = s.flags ∧ SameMemory s t ∧ SameRun s t ∧ t.out = s.out) ∧
    (r = 7 → (s.memRead s.sp).toNat < 255 → ∃ t, exec (.pop (regByte r)) s = .next t ∧
      t.sp.toNat = (s.memRead s.sp).toNat + 1 ∧ t.pc.toNat = s.pc.toNat + 2 ∧ SameRegsExcept [7] s t ∧
      t.flags = s.flags ∧ SameMemory s t ∧ SameRun s t ∧ t.out = s.out)

/-- R103: PUSH then POP on the same register restores it and leaves SP where it was, with only the cell below the
original SP changed; SP decreases by exactly 1 on PUSH and increases by exactly 1 on POP. The law holds for R7 too.
(POP R7 alone does not move SP by 1: `PopResult`. What PUSH R7 stores is the spec's decision D22, assumption log 4.) -/
def Obligations.PushPopRoundTrip : Prop :=
  ∀ (r : RegNum) (s : State), s.pc.toNat ≤ 0xFB → 0 < s.sp.toNat →
    ∃ t u, exec (.push (regByte r)) s = .next t ∧ exec (.pop (regByte r)) t = .next u ∧
      t.sp.toNat + 1 = s.sp.toNat ∧ u.sp.toNat = t.sp.toNat + 1 ∧ u.reg r = s.reg r ∧ SameRegsExcept [] s u ∧
      u.memRead t.sp = (if r = 7 then t.sp else s.reg r) ∧ SameMemoryExcept t.sp s u ∧
      u.pc.toNat = s.pc.toNat + 4 ∧ u.flags = s.flags ∧ SameRun s u ∧ u.out = s.out

/-! ### Control transfer -/

/-- R105: CALL pushes the return address `pc + 2` and jumps to `x[a]`, read after the push; CALL R7 jumps to the new SP
(D22, assumption log 4). Only SP and the pushed byte change besides `pc`. -/
def Obligations.CallResult : Prop :=
  ∀ (r : RegNum) (s : State), s.pc.toNat ≤ 0xFD → 0 < s.sp.toNat →
    ∃ t, exec (.call (regByte r)) s = .next t ∧ t.sp.toNat + 1 = s.sp.toNat ∧
      t.pc = (if r = 7 then t.sp else s.reg r) ∧
      (∀ d, storeAddr s (.call (regByte r)) = some d →
        d = t.sp ∧ (t.memRead d).toNat = s.pc.toNat + 2 ∧ SameMemoryExcept d s t) ∧
      (storeAddr s (.call (regByte r))).isSome = true ∧
      SameRegsExcept [7] s t ∧ t.flags = s.flags ∧ SameRun s t ∧ t.out = s.out

/-- R106: RET jumps to the byte at SP and increments SP; a RET at any address completes unless SP is 0xFF. -/
def Obligations.RetResult : Prop :=
  ∀ s : State, s.sp.toNat < 255 →
    ∃ t, exec .ret s = .next t ∧ t.pc = s.memRead s.sp ∧ t.sp.toNat = s.sp.toNat + 1 ∧
      SameRegsExcept [7] s t ∧ t.flags = s.flags ∧ SameMemory s t ∧ SameRun s t ∧ t.out = s.out

/-- R107, R110: JMP sets `pc` to the register's value and changes nothing else; at 0xFE too, since it uses no
sequential address. -/
def Obligations.JmpResult : Prop :=
  ∀ (r : RegNum) (s : State), s.pc.toNat ≤ 0xFE → exec (.jmp (regByte r)) s = .next { s with pc := s.reg r }

/-- R108: JEQ behaves as JMP when E is set (at 0xFE too); otherwise `pc` advances by 2. Nothing else changes. -/
def Obligations.JeqResult : Prop :=
  ∀ (r : RegNum) (s : State),
    (s.flags.e = true → s.pc.toNat ≤ 0xFE → exec (.jeq (regByte r)) s = .next { s with pc := s.reg r }) ∧
    (s.flags.e = false → s.pc.toNat ≤ 0xFD → ∃ t : Byte, t.toNat = s.pc.toNat + 2 ∧
      exec (.jeq (regByte r)) s = .next { s with pc := t })

/-- R109: JNE behaves as JMP when E is clear (at 0xFE too); otherwise `pc` advances by 2. Nothing else changes. -/
def Obligations.JneResult : Prop :=
  ∀ (r : RegNum) (s : State),
    (s.flags.e = false → s.pc.toNat ≤ 0xFE → exec (.jne (regByte r)) s = .next { s with pc := s.reg r }) ∧
    (s.flags.e = true → s.pc.toNat ≤ 0xFD → ∃ t : Byte, t.toNat = s.pc.toNat + 2 ∧
      exec (.jne (regByte r)) s = .next { s with pc := t })

/-- R112: JEQ and JNE fall through when their condition is false and jump when it is true: for every value of E
exactly one of them jumps. -/
def Obligations.ExactlyOneOfJeqJneJumps : Prop :=
  ∀ (r : RegNum) (s : State), s.pc.toNat ≤ 0xFD →
    ∃ t u, exec (.jeq (regByte r)) s = .next t ∧ exec (.jne (regByte r)) s = .next u ∧
      ((s.flags.e = true ∧ t.pc = s.reg r ∧ u.pc.toNat = s.pc.toNat + 2) ∨
        (s.flags.e = false ∧ t.pc.toNat = s.pc.toNat + 2 ∧ u.pc = s.reg r))

/-- R111: if the instruction at a CALL's target is a RET, then after the two steps `pc` is the CALL's address plus 2,
SP is back at its value before the CALL, and the byte below it, which holds that address, is the only other change.
(CALL R7's target is the spec's decision D22, assumption log 4.) -/
def Obligations.CallThenRet : Prop :=
  ∀ (r : RegNum) (s : State), s.run = .running → s.pc.toNat ≤ 0xFD → 0 < s.sp.toNat →
    s.memRead s.pc = opcode .CALL → s.memRead (s.pc + 1) = regByte r →
    ∃ t, step s = .next t ∧ t.pc = (if r = 7 then t.sp else s.reg r) ∧
      (t.memRead t.pc = opcode .RET →
        ∃ u, step t = .next u ∧ u.pc.toNat = s.pc.toNat + 2 ∧ u.sp = s.sp ∧
          (u.memRead (s.sp - 1)).toNat = s.pc.toNat + 2 ∧ SameMemoryExcept (s.sp - 1) s u ∧
          SameRegsExcept [] s u ∧ u.flags = s.flags ∧ SameRun s u ∧ u.out = s.out)

/-! ### Faults -/

/-- R6, R122 (the spec's decision D5, assumption log 8): an instruction with an operand byte past address 0xFF faults
with `(MEM, 256)` and writes nothing. That it does so where a register byte or the SP step fails too is the spec's
check order, its decision D17 (assumption log 10). -/
def Obligations.OperandPastTopFaults : Prop :=
  ∀ (i : Instr) (s : State), 255 < s.pc.toNat + i.mnemonic.format.operandCount →
    exec i s = .next (faulted s .addressOutOfRange (some (.mem, 256)))

/-- R7, R122 (the spec's decision D4, assumption log 8): a register byte above 7 faults with `(REG, the byte)`; nothing
is written. That the first operand's fault comes before the second's, and before any check of SP or of the sequential
address, is the spec's check order, its decision D17 (assumption log 10). -/
def Obligations.RegisterByteAboveSevenFaults : Prop :=
  ∀ (i : Instr) (s : State) (b : Byte), s.pc.toNat + i.mnemonic.format.operandCount ≤ 255 →
    i.regOperands.find? (fun c => 7 < c.toNat) = some b →
    exec i s = .next (faulted s .addressOutOfRange (some (.reg, (b.toNat : Int))))

/-- R100, R101, R105, R106, R122 (the spec's decision D6, assumption log 8): SP never wraps. PUSH and CALL fault with
SP = 0x00, POP and RET with SP = 0xFF, and POP R7 on a popped byte 0xFF (that this last form adds 1 to the popped byte
is the spec's decision D22, assumption log 4); nothing is written. At `pc` = 0xFE the sequential address fails too, and
that the SP step is the one reported is the spec's check order, its decision D17 (assumption log 10). -/
def Obligations.StackPointerNeverWraps : Prop :=
  ∀ (r : RegNum) (s : State),
    (s.sp = 0x00#8 → s.pc.toNat ≤ 0xFE →
      exec (.push (regByte r)) s = .next (faulted s .addressOutOfRange (some (.mem, -1))) ∧
      exec (.call (regByte r)) s = .next (faulted s .addressOutOfRange (some (.mem, -1)))) ∧
    (s.sp = 0xFF#8 → exec .ret s = .next (faulted s .addressOutOfRange (some (.mem, 256)))) ∧
    (r ≠ 7 → s.sp = 0xFF#8 → s.pc.toNat ≤ 0xFE →
      exec (.pop (regByte r)) s = .next (faulted s .addressOutOfRange (some (.mem, 256)))) ∧
    (s.memRead s.sp = 0xFF#8 → s.pc.toNat ≤ 0xFE →
      exec (.pop 7) s = .next (faulted s .addressOutOfRange (some (.mem, 256))))

/-- R8, R122 (the spec's decision D3): `pc` never wraps. An instruction that uses its sequential address faults with
`(MEM, 256)` where that address would be 256, and writes nothing. -/
def Obligations.ProgramCounterNeverWraps : Prop :=
  ∀ (i : Instr) (s : State), i.wellFormed = true → s.pc.toNat + i.mnemonic.length = 256 → usesSeq s i = true →
    (∀ v, spStep s i = some v → 0 ≤ v ∧ v ≤ 255) →
    exec i s = .next (faulted s .addressOutOfRange (some (.mem, 256)))

/-- R74, R122, R125 (the spec's decision D17): whether an instruction faults, and with which information, is exactly
the first failing check of the priority list: operand fetches, register numbers, SP step, sequential address. If
every check passes, the instruction completes and faults nothing. -/
def Obligations.FirstFailingCheckDecides : Prop :=
  ∀ (i : Instr) (s : State),
    match firstFault s i with
    | some info => exec i s = .next (faulted s .addressOutOfRange (some info))
    | none => ∃ t, exec i s = .next t ∧ t.faultRecord = s.faultRecord ∧
        t.run = (if i = .hlt then .halted else s.run)

/-- R4, R126 (the spec's decision D7): faults are precise. When a step faults, only `run` and the record are written,
and the record names the instruction at `pc`. -/
def Obligations.FaultsArePrecise : Prop :=
  ∀ s t : State, s.run = .running → step s = .next t → t.run = .faulted →
    ∃ f, f.opcode = s.memRead s.pc ∧ f.addr = s.pc ∧ t = { s with run := .faulted, faultRecord := some f }

/-- R91, R123 (the spec's decision D21, assumption log 16): no step records `UnsupportedAluOperation`: a state whose
record says so had that record before the step (a stopped core steps to itself, assumption log 14). -/
def Obligations.UnsupportedAluUnreachable : Prop :=
  ∀ (s t : State) (f : FaultRecord), step s = .next t → t.faultRecord = some f →
    f.cause = .unsupportedAluOperation → s.faultRecord = some f

/-- R124 (the spec's decision D18): the numbers of the fault causes. -/
def Obligations.CauseCodes : Prop :=
  causeCode none = 0 ∧ ∀ f : FaultRecord,
    (f.cause = .invalidInstruction → causeCode (some f) = 1) ∧
    (f.cause = .addressOutOfRange → causeCode (some f) = 2) ∧
    (f.cause = .unsupportedAluOperation → causeCode (some f) = 3)

/-! ### Tables over all instructions -/

/-- R12: no instruction writes a register that its row of the table does not list. -/
def Obligations.RegistersWritten : Prop :=
  ∀ (i : Instr) (s t : State), exec i s = .next t → SameRegsExcept (regsWritten i) s t

/-- R12: no instruction reads a register that its row does not list. Changing a register that is neither read nor
written changes nothing else about what the instruction does, faults included. -/
def Obligations.RegistersRead : Prop :=
  ∀ (i : Instr) (s : State) (r : RegNum) (v : Byte), r ∉ regsRead s i → r ∉ regsWritten i →
    exec i (s.setReg r v) = mapNext (·.setReg r v) (exec i s)

/-- R14: `pc` after an instruction is the table's value, and a faulting instruction leaves it unchanged (the spec's
decision D7, assumption log 8). CALL R7's target, the new SP, is the spec's decision D22 (assumption log 4), and `pc`
after HLT, unchanged, is its decision D23 (assumption log 9). -/
def Obligations.ProgramCounterTable : Prop :=
  ∀ (i : Instr) (s t : State), s.run = .running → exec i s = .next t →
    (t.run ≠ .faulted → (t.pc.toNat : Int) = pcAfter s i) ∧ (t.run = .faulted → t.pc = s.pc)

/-- R20, R40: an instruction changes no byte of memory but the one it stores to; only PUSH and CALL store. -/
def Obligations.MemoryFrame : Prop :=
  ∀ (i : Instr) (s t : State), exec i s = .next t →
    ∀ a : Byte, (∀ d, storeAddr s i = some d → a ≠ d) → t.memRead a = s.memRead a

/-- R9, R19: only PRN outputs, one byte at the end of the trace; no other instruction changes it. -/
def Obligations.OutputOnlyByPrn : Prop :=
  ∀ (i : Instr) (s t : State), exec i s = .next t →
    t.out = s.out ∨ ∃ r : RegNum, i = .prn (regByte r) ∧ t.out = s.out ++ [s.reg r]

/-! ### Memory -/

/-- R5: a write replaces the content of its cell and changes nothing else. -/
def Obligations.ReadAfterWrite : Prop :=
  ∀ (s : State) (a v : Byte), (s.memWrite a v).memRead a = v ∧ SameMemoryExcept a s (s.memWrite a v) ∧
    s.memWrite a v = { s with mem := (s.memWrite a v).mem }

/-- Canonical memories that read the same everywhere are equal data (the model's own form of R20's memory, assumption
log 7). -/
def Obligations.CanonicalMemoryExtensional : Prop :=
  ∀ m n : Memory, m.wf → n.wf → (∀ a, a < 256 → m.read a = n.read a) → m = n

/-- R39 (the spec's decision D16, assumption log 21): a store is seen by the very next fetch, as an opcode byte and as
an operand byte, for both instructions that store. After a PUSH of any register, or a CALL, to any address, the next
step runs, or faults on, what memory with the stored byte in it holds at the new `pc`; with SP three above `pc`, a PUSH
stores the next opcode byte. That PUSH R7 stores, and CALL R7 jumps to, the new SP is the spec's decision D22
(assumption log 4); the fault on an operand past the top of memory is its decision D5 (assumption log 8). -/
def Obligations.StoreSeenByNextFetch : Prop :=
  ∀ (r : RegNum) (s : State), s.run = .running → s.pc.toNat ≤ 0xFD → 0 < s.sp.toNat →
    s.memRead (s.pc + 1) = regByte r →
    (s.memRead s.pc = opcode .PUSH → ∃ t, step s = .next t ∧ t.pc.toNat = s.pc.toNat + 2 ∧
      t.sp.toNat + 1 = s.sp.toNat ∧ FetchSeesStore s t t.sp (if r = 7 then t.sp else s.reg r)) ∧
    (s.memRead s.pc = opcode .CALL → ∃ (t : State) (ret : Byte), step s = .next t ∧
      t.pc = (if r = 7 then t.sp else s.reg r) ∧ t.sp.toNat + 1 = s.sp.toNat ∧ ret.toNat = s.pc.toNat + 2 ∧
      FetchSeesStore s t t.sp ret)

/-! ### The invariant, and the host -/

/-- The invariant holds right after reset. -/
def Obligations.InvAtReset : Prop := State.reset.Inv

/-- Every step of the core keeps the invariant (R18, R20, R71, R96, R122, R126), from every state that meets it. That
a halted core stands on its HLT is the spec's decision D23 (assumption log 9); the flags before the first CMP (in the
`idle` clause) are its decision D10 (assumption log 2), and R0..R6 there its decision D9 (assumption log 1). -/
def Obligations.StepKeepsInv : Prop :=
  ∀ s t : State, s.Inv → step s = .next t → t.Inv

/-- Every action the host may do keeps the invariant (R142 to R145). -/
def Obligations.HostKeepsInv : Prop :=
  ∀ (h : HostAction) (s t : State), s.Inv → hostAct h s = some t → t.Inv

/-- Every state the core and its host can reach from reset, by any moves in any order, meets the invariant. -/
def Obligations.ReachableStatesMeetInv : Prop :=
  ∀ s : State, Reach s → s.Inv

/-- R17, R127, R140 (the spec's decisions D8 and D19, assumption log 13 and 19): only reset leaves `HALTED` or `FAULTED`;
every other move that is possible there changes nothing (a stopped core steps to itself, assumption log 14). -/
def Obligations.OnlyResetLeavesTerminal : Prop :=
  ∀ (m : Move) (s t : State), s.run = .halted ∨ s.run = .faulted → m ≠ .host .reset →
    move m s = some t → t = s

/-- R142, R144, R145 (the spec's decision D19): what each host action does and in which run states it is allowed. -/
def Obligations.HostProtocol : Prop :=
  ∀ (s : State) (a v : Byte),
    hostAct .reset s = some State.reset ∧
    (s.run = .idle → hostAct (.load a v) s = some (s.memWrite a v)) ∧
    (s.run ≠ .idle → hostAct (.load a v) s = none) ∧
    (s.run = .idle → hostAct .start s = some { s with run := .running }) ∧
    (s.run = .halted ∨ s.run = .faulted → hostAct .start s = some s) ∧
    (s.run = .running → hostAct .start s = none ∧ hostAct .observe s = none) ∧
    (s.run ≠ .running → hostAct .observe s = some s)

/-- R143, R144: an image of at most 256 bytes boots: byte number `i` is in `mem[i]`, every other cell is 0x00, the core
is running at address 0x00 and everything else is as after reset. A longer image cannot be loaded. -/
def Obligations.BootLoadsImage : Prop :=
  ∀ image : List Byte,
    (image.length ≤ 256 → ∃ s, boot image = some s ∧ s = { State.reset with mem := s.mem, run := .running } ∧
      (∀ (i : Nat) (h : i < image.length), s.memRead (BitVec.ofNat 8 i) = image[i]) ∧
      (∀ a : Byte, image.length ≤ a.toNat → s.memRead a = 0x00#8)) ∧
    (256 < image.length → boot image = none)
end

