-- ==== Sys2Proof/Laws/State.lean ====
section
/-! SUPPORT. One lemma per field per update of the state, each by `rfl`, so that no later proof unfolds a record
update; and the laws of reading registers and flags back. -/

namespace Sys2Proof.Machine

variable (s : State)

/-! ### `State.setReg` -/

@[simp] theorem setReg_pc (a : RegNum) (v : Byte) : (s.setReg a v).pc = s.pc := rfl
@[simp] theorem setReg_flags (a : RegNum) (v : Byte) : (s.setReg a v).flags = s.flags := rfl
@[simp] theorem setReg_mem (a : RegNum) (v : Byte) : (s.setReg a v).mem = s.mem := rfl
@[simp] theorem setReg_run (a : RegNum) (v : Byte) : (s.setReg a v).run = s.run := rfl
@[simp] theorem setReg_faultRecord (a : RegNum) (v : Byte) : (s.setReg a v).faultRecord = s.faultRecord := rfl
@[simp] theorem setReg_out (a : RegNum) (v : Byte) : (s.setReg a v).out = s.out := rfl
@[simp] theorem setReg_memRead (a : RegNum) (v : Byte) (d : Byte) : (s.setReg a v).memRead d = s.memRead d := rfl

/-! ### `State.setSp` -/

@[simp] theorem setSp_pc (v : Byte) : (s.setSp v).pc = s.pc := rfl
@[simp] theorem setSp_flags (v : Byte) : (s.setSp v).flags = s.flags := rfl
@[simp] theorem setSp_mem (v : Byte) : (s.setSp v).mem = s.mem := rfl
@[simp] theorem setSp_run (v : Byte) : (s.setSp v).run = s.run := rfl
@[simp] theorem setSp_faultRecord (v : Byte) : (s.setSp v).faultRecord = s.faultRecord := rfl
@[simp] theorem setSp_out (v : Byte) : (s.setSp v).out = s.out := rfl
@[simp] theorem setSp_memRead (v : Byte) (d : Byte) : (s.setSp v).memRead d = s.memRead d := rfl

/-! ### `State.setPc` -/

@[simp] theorem setPc_regs (t : Byte) : (s.setPc t).regs = s.regs := rfl
@[simp] theorem setPc_flags (t : Byte) : (s.setPc t).flags = s.flags := rfl
@[simp] theorem setPc_mem (t : Byte) : (s.setPc t).mem = s.mem := rfl
@[simp] theorem setPc_run (t : Byte) : (s.setPc t).run = s.run := rfl
@[simp] theorem setPc_faultRecord (t : Byte) : (s.setPc t).faultRecord = s.faultRecord := rfl
@[simp] theorem setPc_out (t : Byte) : (s.setPc t).out = s.out := rfl
@[simp] theorem setPc_reg (t : Byte) (q : RegNum) : (s.setPc t).reg q = s.reg q := rfl
@[simp] theorem setPc_sp (t : Byte) : (s.setPc t).sp = s.sp := rfl
@[simp] theorem setPc_memRead (t : Byte) (d : Byte) : (s.setPc t).memRead d = s.memRead d := rfl
@[simp] theorem setPc_pc (t : Byte) : (s.setPc t).pc = t := rfl

/-! ### `State.setFlags` -/

@[simp] theorem setFlags_regs (f : Flags) : (s.setFlags f).regs = s.regs := rfl
@[simp] theorem setFlags_pc (f : Flags) : (s.setFlags f).pc = s.pc := rfl
@[simp] theorem setFlags_mem (f : Flags) : (s.setFlags f).mem = s.mem := rfl
@[simp] theorem setFlags_run (f : Flags) : (s.setFlags f).run = s.run := rfl
@[simp] theorem setFlags_faultRecord (f : Flags) : (s.setFlags f).faultRecord = s.faultRecord := rfl
@[simp] theorem setFlags_out (f : Flags) : (s.setFlags f).out = s.out := rfl
@[simp] theorem setFlags_reg (f : Flags) (q : RegNum) : (s.setFlags f).reg q = s.reg q := rfl
@[simp] theorem setFlags_sp (f : Flags) : (s.setFlags f).sp = s.sp := rfl
@[simp] theorem setFlags_memRead (f : Flags) (d : Byte) : (s.setFlags f).memRead d = s.memRead d := rfl
@[simp] theorem setFlags_flags (f : Flags) : (s.setFlags f).flags = f := rfl

/-! ### `State.output` -/

@[simp] theorem output_regs (v : Byte) : (s.output v).regs = s.regs := rfl
@[simp] theorem output_pc (v : Byte) : (s.output v).pc = s.pc := rfl
@[simp] theorem output_flags (v : Byte) : (s.output v).flags = s.flags := rfl
@[simp] theorem output_mem (v : Byte) : (s.output v).mem = s.mem := rfl
@[simp] theorem output_run (v : Byte) : (s.output v).run = s.run := rfl
@[simp] theorem output_faultRecord (v : Byte) : (s.output v).faultRecord = s.faultRecord := rfl
@[simp] theorem output_reg (v : Byte) (q : RegNum) : (s.output v).reg q = s.reg q := rfl
@[simp] theorem output_sp (v : Byte) : (s.output v).sp = s.sp := rfl
@[simp] theorem output_memRead (v : Byte) (d : Byte) : (s.output v).memRead d = s.memRead d := rfl
@[simp] theorem output_out (v : Byte) : (s.output v).out = s.out ++ [v] := rfl

/-! ### `State.setRun` -/

@[simp] theorem setRun_regs (r : RunState) : (s.setRun r).regs = s.regs := rfl
@[simp] theorem setRun_pc (r : RunState) : (s.setRun r).pc = s.pc := rfl
@[simp] theorem setRun_flags (r : RunState) : (s.setRun r).flags = s.flags := rfl
@[simp] theorem setRun_mem (r : RunState) : (s.setRun r).mem = s.mem := rfl
@[simp] theorem setRun_faultRecord (r : RunState) : (s.setRun r).faultRecord = s.faultRecord := rfl
@[simp] theorem setRun_out (r : RunState) : (s.setRun r).out = s.out := rfl
@[simp] theorem setRun_reg (r : RunState) (q : RegNum) : (s.setRun r).reg q = s.reg q := rfl
@[simp] theorem setRun_sp (r : RunState) : (s.setRun r).sp = s.sp := rfl
@[simp] theorem setRun_memRead (r : RunState) (d : Byte) : (s.setRun r).memRead d = s.memRead d := rfl
@[simp] theorem setRun_run (r : RunState) : (s.setRun r).run = r := rfl

/-! ### `State.memWrite` -/

@[simp] theorem memWrite_regs (a v : Byte) : (s.memWrite a v).regs = s.regs := rfl
@[simp] theorem memWrite_pc (a v : Byte) : (s.memWrite a v).pc = s.pc := rfl
@[simp] theorem memWrite_flags (a v : Byte) : (s.memWrite a v).flags = s.flags := rfl
@[simp] theorem memWrite_run (a v : Byte) : (s.memWrite a v).run = s.run := rfl
@[simp] theorem memWrite_faultRecord (a v : Byte) : (s.memWrite a v).faultRecord = s.faultRecord := rfl
@[simp] theorem memWrite_out (a v : Byte) : (s.memWrite a v).out = s.out := rfl
@[simp] theorem memWrite_reg (a v : Byte) (q : RegNum) : (s.memWrite a v).reg q = s.reg q := rfl
@[simp] theorem memWrite_sp (a v : Byte) : (s.memWrite a v).sp = s.sp := rfl
@[simp] theorem memWrite_mem (a v : Byte) : (s.memWrite a v).mem = s.mem.write a.toNat v := rfl

/-! ### `State.push` -/

@[simp] theorem push_pc (t v : Byte) : (s.push t v).pc = s.pc := rfl
@[simp] theorem push_flags (t v : Byte) : (s.push t v).flags = s.flags := rfl
@[simp] theorem push_run (t v : Byte) : (s.push t v).run = s.run := rfl
@[simp] theorem push_faultRecord (t v : Byte) : (s.push t v).faultRecord = s.faultRecord := rfl
@[simp] theorem push_out (t v : Byte) : (s.push t v).out = s.out := rfl
@[simp] theorem push_mem (t v : Byte) : (s.push t v).mem = s.mem.write t.toNat v := rfl

/-! ### `State.takeFault` -/

@[simp] theorem takeFault_regs (r : Raise) : (s.takeFault r).regs = s.regs := rfl
@[simp] theorem takeFault_pc (r : Raise) : (s.takeFault r).pc = s.pc := rfl
@[simp] theorem takeFault_flags (r : Raise) : (s.takeFault r).flags = s.flags := rfl
@[simp] theorem takeFault_mem (r : Raise) : (s.takeFault r).mem = s.mem := rfl
@[simp] theorem takeFault_out (r : Raise) : (s.takeFault r).out = s.out := rfl
@[simp] theorem takeFault_reg (r : Raise) (q : RegNum) : (s.takeFault r).reg q = s.reg q := rfl
@[simp] theorem takeFault_sp (r : Raise) : (s.takeFault r).sp = s.sp := rfl
@[simp] theorem takeFault_memRead (r : Raise) (d : Byte) : (s.takeFault r).memRead d = s.memRead d := rfl
@[simp] theorem takeFault_run (r : Raise) : (s.takeFault r).run = .faulted := rfl
@[simp] theorem takeFault_faultRecord (r : Raise) : (s.takeFault r).faultRecord =
    some { cause := r.cause, opcode := s.memRead s.pc, addr := s.pc, info := r.info } := rfl

/-! ### Reading a register back -/

/-- A register write is seen by that register and by no other. -/
theorem reg_setReg (a b : RegNum) (v : Byte) : (s.setReg a v).reg b = if b = a then v else s.reg b := by
  simp only [State.reg, State.setReg, Vector.get_eq_getElem, Vector.getElem_set, Fin.ext_iff, eq_comm]

@[simp] theorem reg_setReg_self (a : RegNum) (v : Byte) : (s.setReg a v).reg a = v := by simp [reg_setReg]

theorem reg_setReg_ne {a b : RegNum} (h : b ≠ a) (v : Byte) : (s.setReg a v).reg b = s.reg b := by
  simp [reg_setReg, h]

@[simp] theorem sp_setSp (v : Byte) : (s.setSp v).sp = v := reg_setReg_self s _ v

@[simp] theorem sp_push (t v : Byte) : (s.push t v).sp = t := sp_setSp s t

/-- SP is register 7. -/
theorem sp_eq_reg : s.sp = s.reg 7 := rfl

theorem reg_setSp (b : RegNum) (v : Byte) : (s.setSp v).reg b = if b = 7 then v else s.reg b := reg_setReg s 7 b v

theorem reg_push (b : RegNum) (t v : Byte) : (s.push t v).reg b = if b = 7 then t else s.reg b := reg_setReg s 7 b t

theorem sp_setReg (a : RegNum) (v : Byte) : (s.setReg a v).sp = if a = 7 then v else s.sp := by
  rw [sp_eq_reg, reg_setReg, sp_eq_reg]; simp only [eq_comm]

/-- Two register writes to different registers commute. -/
theorem setReg_comm {a b : RegNum} (h : a ≠ b) (v w : Byte) :
    (s.setReg a v).setReg b w = (s.setReg b w).setReg a v := by
  simp only [State.setReg]
  congr 1
  exact Vector.set_comm _ _ (fun e => h (Fin.ext e))


end Sys2Proof.Machine
end

