-- ==== Sys2Proof/Laws/Memory.lean ====
section
/-! SUPPORT. The laws of memory: a read after a write (R5, R33), for every memory, and that every memory operation
keeps the canonical form. -/

namespace Sys2Proof.Machine

/-! ### Reading -/

theorem Memory.read_remove (m : Memory) (a b : Nat) :
    Memory.read (Memory.remove m a) b = if b = a then Config.memReset else Memory.read m b := by
  induction m with
  | nil => simp [Memory.remove, Memory.read]
  | cons c m ih =>
    obtain ⟨k, w⟩ := c
    by_cases hk : a = k
    · subst hk
      by_cases hb : b = a
      · subst hb; simpa [Memory.remove] using ih
      · simp [Memory.remove, Memory.read, ih, hb]
    · by_cases hb : b = k
      · subst hb; simp [Memory.remove, Memory.read, hk, Ne.symm hk]
      · simp [Memory.remove, Memory.read, ih, hk, hb]

theorem Memory.read_place (m : Memory) (a : Nat) (v : Byte) (b : Nat) (h : ∀ c ∈ m, c.1 ≠ a) :
    Memory.read (Memory.place m a v) b = if b = a then v else Memory.read m b := by
  induction m with
  | nil => rfl
  | cons c m ih =>
    obtain ⟨k, w⟩ := c
    have hk : k ≠ a := h (k, w) (by simp)
    have ih := ih fun c hc => h c (by simp [hc])
    by_cases hlt : a < k
    · simp [Memory.place, Memory.read, hlt]
    · by_cases hb : b = k
      · subst hb; simp [Memory.place, Memory.read, hlt, hk]
      · simp [Memory.place, Memory.read, hlt, hb, ih]

theorem Memory.mem_remove {m : Memory} {a : Nat} {c : Host.Cell} : c ∈ Memory.remove m a ↔ c ∈ m ∧ c.1 ≠ a := by
  induction m with
  | nil => simp [Memory.remove]
  | cons d m ih =>
    obtain ⟨k, w⟩ := d
    by_cases hk : a = k
    · subst hk
      simp only [Memory.remove, if_pos, ih, List.mem_cons]
      constructor
      · exact fun h => ⟨.inr h.1, h.2⟩
      · rintro ⟨rfl | h, hne⟩
        · exact absurd rfl hne
        · exact ⟨h, hne⟩
    · simp only [Memory.remove, hk, if_false, List.mem_cons, ih]
      constructor
      · rintro (rfl | h)
        · exact ⟨.inl rfl, Ne.symm hk⟩
        · exact ⟨.inr h.1, h.2⟩
      · rintro ⟨h | h, hne⟩
        · exact .inl h
        · exact .inr ⟨h, hne⟩

/-- A read after a write to the same cell gives the byte written; a write leaves every other cell alone. -/
theorem Memory.read_write (m : Memory) (a : Nat) (v : Byte) (b : Nat) :
    Memory.read (Memory.write m a v) b = if b = a then v else Memory.read m b := by
  unfold Memory.write
  split
  · next hv => rw [Memory.read_remove, hv]
  · rw [Memory.read_place _ _ _ _ fun c hc => (Memory.mem_remove.mp hc).2, Memory.read_remove]
    by_cases hb : b = a <;> simp [hb]

/-- `MemRead` after `MemWrite` (R5). -/
theorem memRead_memWrite (s : State) (a v d : Byte) :
    (s.memWrite a v).memRead d = if d = a then v else s.memRead d := by
  rw [State.memRead, memWrite_mem, Memory.read_write, ← State.memRead]
  simp only [BitVec.toNat_inj]

theorem memRead_push (s : State) (t v d : Byte) :
    (s.push t v).memRead d = if d = t then v else s.memRead d := memRead_memWrite _ t v d

/-! ### The canonical form -/

theorem Memory.mem_place {m : Memory} {a : Nat} {v : Byte} {c : Host.Cell} :
    c ∈ Memory.place m a v ↔ c = (a, v) ∨ c ∈ m := by
  induction m with
  | nil => simp [Memory.place]
  | cons d m ih =>
    obtain ⟨k, w⟩ := d
    by_cases hlt : a < k
    · simp [Memory.place, hlt]
    · simp only [Memory.place, hlt, if_false, List.mem_cons, ih]
      exact or_left_comm

theorem Memory.pairwise_remove {m : Memory} (a : Nat) (h : m.Pairwise (fun c d => c.1 < d.1)) :
    (Memory.remove m a).Pairwise (fun c d => c.1 < d.1) := by
  induction m with
  | nil => exact h
  | cons c m ih =>
    obtain ⟨k, w⟩ := c
    obtain ⟨hk, hm⟩ := List.pairwise_cons.mp h
    unfold Memory.remove
    split
    · exact ih hm
    · exact List.pairwise_cons.mpr ⟨fun d hd => hk d (Memory.mem_remove.mp hd).1, ih hm⟩

theorem Memory.pairwise_place {m : Memory} (a : Nat) (v : Byte) (h : m.Pairwise (fun c d => c.1 < d.1))
    (ha : ∀ c ∈ m, c.1 ≠ a) : (Memory.place m a v).Pairwise (fun c d => c.1 < d.1) := by
  induction m with
  | nil => exact List.pairwise_singleton _ _
  | cons c m ih =>
    obtain ⟨k, w⟩ := c
    obtain ⟨hk, hm⟩ := List.pairwise_cons.mp h
    have hka : k ≠ a := ha (k, w) (by simp)
    unfold Memory.place
    split
    · next hlt =>
      refine List.pairwise_cons.mpr ⟨fun d hd => ?_, h⟩
      rcases List.mem_cons.mp hd with rfl | hd
      · exact hlt
      · exact Nat.lt_trans hlt (hk d hd)
    · next hlt =>
      refine List.pairwise_cons.mpr ⟨fun d hd => ?_, ih hm fun c hc => ha c (by simp [hc])⟩
      rcases Memory.mem_place.mp hd with rfl | hd
      · simp only; omega
      · exact hk d hd

/-- A write to one of the 256 cells keeps the canonical form. -/
theorem Memory.wf_write {m : Memory} (h : m.wf) (a v : Byte) : (Memory.write m a.toNat v).wf := by
  have hr : (Memory.remove m a.toNat).wf :=
    ⟨Memory.pairwise_remove _ h.1, fun c hc => h.2 c (Memory.mem_remove.mp hc).1⟩
  unfold Memory.write
  split
  · exact hr
  · next hv =>
    refine ⟨Memory.pairwise_place _ _ hr.1 fun c hc => (Memory.mem_remove.mp hc).2, fun c hc => ?_⟩
    rcases Memory.mem_place.mp hc with rfl | hc
    · exact ⟨a.isLt, hv⟩
    · exact hr.2 c hc

/-- Reset memory is canonical. -/
theorem wf_reset : State.reset.mem.wf := by decide

/-- Every operation of the state keeps the canonical form; those other than a store do not touch memory at all. -/
theorem wf_memWrite {s : State} (h : s.mem.wf) (a v : Byte) : (s.memWrite a v).mem.wf := Memory.wf_write h a v

theorem wf_push {s : State} (h : s.mem.wf) (t v : Byte) : (s.push t v).mem.wf := Memory.wf_write h t v

theorem wf_storeBytes (bs : List Byte) (a : Nat) {s : State} (h : s.mem.wf) : (State.storeBytes bs a s).mem.wf := by
  induction bs generalizing a s with
  | nil => exact h
  | cons b bs ih =>
    unfold State.storeBytes
    split
    · exact ih _ (wf_memWrite h _ _)
    · exact ih _ h

end Sys2Proof.Machine
end

