-- ==== Sys2Proof/Laws/Checks.lean ====
section
/-! SUPPORT. One lemma per check and shared operation: everything it can answer. Handlers' proofs cite these and
unfold no check. -/

namespace Sys2Proof.Machine

/-! ### Addresses (R41) -/

/-- A byte made from a number that fits is that number. -/
theorem toNat_ofNat_of_le {n : Nat} (h : n ≤ 255) : (BitVec.ofNat 8 n).toNat = n := by
  rw [BitVec.toNat_ofNat]; omega

/-- In range, an address is the byte of the same value. -/
theorem checkAddr_of_le {n : Nat} (h : n ≤ 255) : checkAddr n = .ok (BitVec.ofNat 8 n) := if_pos h

theorem checkAddr_of_gt {n : Nat} (h : 255 < n) : checkAddr n = .error (addressOutOfRange .mem n) :=
  if_neg (Nat.not_le.mpr h)

theorem operandAddr_of_le {s : State} {k : Nat} (h : s.pc.toNat + k ≤ 255) :
    s.operandAddr k = .ok (BitVec.ofNat 8 (s.pc.toNat + k)) := checkAddr_of_le h

theorem operandAddr_of_gt {s : State} {k : Nat} (h : 255 < s.pc.toNat + k) :
    s.operandAddr k = .error (addressOutOfRange .mem (s.pc.toNat + k)) := checkAddr_of_gt h

theorem seq_of_le {s : State} {n : Nat} (h : s.pc.toNat + n ≤ 255) :
    s.seq n = .ok (BitVec.ofNat 8 (s.pc.toNat + n)) := checkAddr_of_le h

theorem seq_of_gt {s : State} {n : Nat} (h : 255 < s.pc.toNat + n) :
    s.seq n = .error (addressOutOfRange .mem (s.pc.toNat + n)) := checkAddr_of_gt h

/-! ### The stack pointer (R100, R101, R105, R106) -/

theorem spDec_of_pos {s : State} (h : 0 < s.sp.toNat) : s.spDec = .ok (BitVec.ofNat 8 (s.sp.toNat - 1)) :=
  if_neg (Nat.ne_of_gt h)

theorem spDec_of_zero {s : State} (h : s.sp.toNat = 0) : s.spDec = .error (addressOutOfRange .mem (-1)) := if_pos h

theorem spInc_of_lt {v : Byte} (h : v.toNat < 255) : spInc v = .ok (BitVec.ofNat 8 (v.toNat + 1)) := checkAddr_of_le h

theorem spInc_of_top {v : Byte} (h : v.toNat = 255) : spInc v = .error (addressOutOfRange .mem 256) := by
  unfold spInc; rw [h]; rfl

/-! ### Register numbers (R7) -/

theorem regIdx_ok {b : Byte} {r : RegNum} : regIdx b = .ok r ↔ b = BitVec.ofNat 8 r.val := by
  unfold regIdx
  have := r.isLt
  split
  · next h =>
    simp only [Except.ok.injEq, Fin.ext_iff, BitVec.toNat_eq, BitVec.toNat_ofNat]
    omega
  · next h =>
    simp only [reduceCtorEq, false_iff, BitVec.toNat_eq, BitVec.toNat_ofNat]
    omega

theorem regIdx_of_gt {b : Byte} (h : 7 < b.toNat) : regIdx b = .error (addressOutOfRange .reg b.toNat) := by
  unfold regIdx; rw [dif_neg (by omega)]

/-! ### The transaction (R4) -/

@[simp] theorem transact_ok (s t : State) : transact s (.ok t) = .next t := rfl

@[simp] theorem transact_error (s : State) (r : Raise) : transact s (.error r) = .next (s.takeFault r) := rfl

/-- A transaction always answers a next state: the committed one, or the one its fault leaves. -/
theorem transact_next {s t : State} {c : Except Raise State} (h : transact s c = .next t) :
    c = .ok t ∨ ∃ r, c = .error r ∧ t = s.takeFault r := by
  cases c with
  | ok u => cases h; exact .inl rfl
  | error r => cases h; exact .inr ⟨r, rfl, rfl⟩

/-! ### Compare (R94) -/

theorem compareFlags_e (x y : Byte) : (compareFlags x y).e = true ↔ x = y := by simp [compareFlags]

theorem compareFlags_l (x y : Byte) : (compareFlags x y).l = true ↔ x.toNat < y.toNat := by simp [compareFlags]

theorem compareFlags_g (x y : Byte) : (compareFlags x y).g = true ↔ y.toNat < x.toNat := by simp [compareFlags]

end Sys2Proof.Machine
end

