-- ==== Sys2Proof/Laws/Decode.lean ====
section
/-! SUPPORT. The laws of the decoder's parts: the opcode table read in both directions (R56), and what assembling
operands can answer (R50). -/

namespace Sys2Proof

/-- No two rows of the opcode table have the same byte (R55). -/
theorem opcode_injective {m n : Mnemonic} (h : opcode m = opcode n) : m = n := by
  revert m n
  intro m n
  cases m <;> cases n <;> decide

@[simp] theorem decodeOpcode_opcode (m : Mnemonic) : decodeOpcode (opcode m) = some m := by cases m <;> rfl

/-- The decoder answers a mnemonic only for that mnemonic's own opcode byte. -/
theorem opcode_of_decodeOpcode {o : Byte} {m : Mnemonic} (h : decodeOpcode o = some m) : o = opcode m :=
  (by simpa using List.find?_some h : opcode m = o).symm

/-- It answers `Invalid` only for a byte that is no opcode. -/
theorem decodeOpcode_eq_none {o : Byte} : decodeOpcode o = none ↔ ∀ m, o ≠ opcode m := by
  constructor
  · rintro h m rfl
    simp at h
  · intro h
    cases hd : decodeOpcode o with
    | none => rfl
    | some m => exact absurd (opcode_of_decodeOpcode hd) (h m)

/-- Decoding a list of bytes, by what its first byte is. -/
theorem decode_cons_of_none {o : Byte} {bs : List Byte} (h : decodeOpcode o = none) :
    decode (o :: bs) = .error (.invalidOpcode o) := by
  simp only [decode, h]

theorem decode_cons_of_some {o : Byte} {bs : List Byte} {m : Mnemonic} (h : decodeOpcode o = some m) :
    decode (o :: bs) = takeOperands m bs := by
  simp only [decode, h]

/-- Assembling operands takes exactly the operand bytes of the instruction it answers, which has the mnemonic asked
for. -/
theorem takeOperands_ok {m : Mnemonic} {bs rest : List Byte} {i : Instr} (h : takeOperands m bs = .ok (i, rest)) :
    i.mnemonic = m ∧ bs = i.operandBytes ++ rest := by
  unfold takeOperands at h
  split at h <;> cases h <;> exact ⟨rfl, rfl⟩

/-- It misses an operand byte only where the list is too short, and names the first one missing. -/
theorem takeOperands_error {m : Mnemonic} {bs : List Byte} {e : DecodeError} (h : takeOperands m bs = .error e) :
    bs.length < m.format.operandCount ∧ e = .missingByte (bs.length + 1) := by
  unfold takeOperands at h
  split at h <;> cases h <;> exact ⟨by simp [Mnemonic.format, Format.operandCount], rfl⟩

/-- The operand bytes are as many as the format says (R50). -/
theorem operandBytes_length (i : Instr) : i.operandBytes.length = i.mnemonic.format.operandCount := by
  cases i <;> rfl

end Sys2Proof
end

