-- ==== Sys2Proof/Laws/Exec.lean ====
section
/-! SUPPORT. Everything `exec` can do, said once: `Commit i s t` is what an instruction does when all its checks pass;
`exec_of_commit` and `exec_next` say that a next state is that commit or the state an address fault leaves. -/

namespace Sys2Proof.Machine

/-- The checks an instruction has passed and the state it commits. -/
def Commit : Instr → State → State → Prop
  | .hlt, s, t => t = s.setRun .halted
  | .ret, s, t => s.sp.toNat + 1 ≤ 255 ∧ t = (s.setSp (BitVec.ofNat 8 (s.sp.toNat + 1))).setPc (s.memRead s.sp)
  | .push b, s, t => ∃ r, b = regByte r ∧ s.pc.toNat + 2 ≤ 255 ∧ 0 < s.sp.toNat ∧
      t = (s.push (BitVec.ofNat 8 (s.sp.toNat - 1)) ((s.setSp (BitVec.ofNat 8 (s.sp.toNat - 1))).reg r)).setPc
        (BitVec.ofNat 8 (s.pc.toNat + 2))
  | .pop b, s, t => ∃ r, b = regByte r ∧ s.pc.toNat + 2 ≤ 255 ∧ (s.setReg r (s.memRead s.sp)).sp.toNat + 1 ≤ 255 ∧
      t = ((s.setReg r (s.memRead s.sp)).setSp
        (BitVec.ofNat 8 ((s.setReg r (s.memRead s.sp)).sp.toNat + 1))).setPc (BitVec.ofNat 8 (s.pc.toNat + 2))
  | .prn b, s, t => ∃ r, b = regByte r ∧ s.pc.toNat + 2 ≤ 255 ∧
      t = (s.output (s.reg r)).setPc (BitVec.ofNat 8 (s.pc.toNat + 2))
  | .call b, s, t => ∃ r, b = regByte r ∧ s.pc.toNat + 2 ≤ 255 ∧ 0 < s.sp.toNat ∧
      t = (s.push (BitVec.ofNat 8 (s.sp.toNat - 1)) (BitVec.ofNat 8 (s.pc.toNat + 2))).setPc
        ((s.setSp (BitVec.ofNat 8 (s.sp.toNat - 1))).reg r)
  | .jmp b, s, t => ∃ r, b = regByte r ∧ s.pc.toNat + 1 ≤ 255 ∧ t = s.setPc (s.reg r)
  | .jeq b, s, t => ∃ r, b = regByte r ∧
      (s.flags.e = true ∧ s.pc.toNat + 1 ≤ 255 ∧ t = s.setPc (s.reg r) ∨
        s.flags.e = false ∧ s.pc.toNat + 2 ≤ 255 ∧ t = s.setPc (BitVec.ofNat 8 (s.pc.toNat + 2)))
  | .jne b, s, t => ∃ r, b = regByte r ∧
      (s.flags.e = false ∧ s.pc.toNat + 1 ≤ 255 ∧ t = s.setPc (s.reg r) ∨
        s.flags.e = true ∧ s.pc.toNat + 2 ≤ 255 ∧ t = s.setPc (BitVec.ofNat 8 (s.pc.toNat + 2)))
  | .ldi b v, s, t => ∃ r, b = regByte r ∧ s.pc.toNat + 3 ≤ 255 ∧
      t = (s.setReg r v).setPc (BitVec.ofNat 8 (s.pc.toNat + 3))
  | .add b c, s, t => ∃ r q, b = regByte r ∧ c = regByte q ∧ s.pc.toNat + 3 ≤ 255 ∧
      t = (s.alu .add r q).setPc (BitVec.ofNat 8 (s.pc.toNat + 3))
  | .mult b c, s, t => ∃ r q, b = regByte r ∧ c = regByte q ∧ s.pc.toNat + 3 ≤ 255 ∧
      t = (s.alu .mult r q).setPc (BitVec.ofNat 8 (s.pc.toNat + 3))
  | .cmp b c, s, t => ∃ r q, b = regByte r ∧ c = regByte q ∧ s.pc.toNat + 3 ≤ 255 ∧
      t = (s.alu .compare r q).setPc (BitVec.ofNat 8 (s.pc.toNat + 3))

/-- An address fault: the only kind `exec` raises, with the information R122 allows. -/
def AddressFault (r : Raise) : Prop :=
  r = addressOutOfRange .mem (-1) ∨ r = addressOutOfRange .mem 256 ∨
    ∃ b : Byte, 7 < b.toNat ∧ r = addressOutOfRange .reg b.toNat

/-- A computation that raises address faults only, and whose answer otherwise meets `Q`. -/
inductive Checked {α : Type} (c : Except Raise α) (Q : α → Prop) : Prop where
  | passed (a : α) (h : c = .ok a) (hq : Q a)
  | raised (r : Raise) (h : c = .error r) (hr : AddressFault r)

theorem Checked.pure {α : Type} {a : α} {Q : α → Prop} (h : Q a) : Checked (Pure.pure a) Q := .passed a rfl h

theorem Checked.bind {α β : Type} {c : Except Raise α} {P : α → Prop} {f : α → Except Raise β} {Q : β → Prop}
    (hc : Checked c P) (hf : ∀ a, P a → Checked (f a) Q) : Checked (c >>= f) Q := by
  cases hc with
  | passed a h hq => subst h; exact hf a hq
  | raised r h hr => subst h; exact .raised r rfl hr

theorem Checked.imp {α : Type} {c : Except Raise α} {P Q : α → Prop} (hc : Checked c P) (h : ∀ a, P a → Q a) :
    Checked c Q := by
  cases hc with
  | passed a e hq => exact .passed a e (h a hq)
  | raised r e hr => exact .raised r e hr

/-- A transaction of such a computation commits an answer that meets `Q`, or takes an address fault. -/
theorem Checked.transact {s : State} {c : Except Raise State} {Q : State → Prop} (hc : Checked c Q) :
    (∃ t, Q t ∧ Machine.transact s c = .next t) ∨
      ∃ r, AddressFault r ∧ Machine.transact s c = .next (s.takeFault r) := by
  cases hc with
  | passed t h hq => subst h; exact .inl ⟨t, hq, rfl⟩
  | raised r h hr => subst h; exact .inr ⟨r, hr, rfl⟩

/-! ### The checks -/

theorem operandAddr_checked {s : State} {k : Nat} (hk : s.pc.toNat + k ≤ 256) :
    Checked (s.operandAddr k) fun a => s.pc.toNat + k ≤ 255 ∧ a = BitVec.ofNat 8 (s.pc.toNat + k) := by
  by_cases h : s.pc.toNat + k ≤ 255
  · exact .passed _ (operandAddr_of_le h) ⟨h, rfl⟩
  · have e : (s.pc.toNat + k : Int) = 256 := by omega
    exact .raised _ (operandAddr_of_gt (by omega)) (.inr (.inl (by rw [e])))

theorem seq_checked {s : State} {n : Nat} (hn : s.pc.toNat + n ≤ 256) :
    Checked (s.seq n) fun a => s.pc.toNat + n ≤ 255 ∧ a = BitVec.ofNat 8 (s.pc.toNat + n) :=
  operandAddr_checked hn

theorem regIdx_checked (b : Byte) : Checked (regIdx b) fun r => b = regByte r := by
  by_cases h : 7 < b.toNat
  · exact .raised _ (regIdx_of_gt h) (.inr (.inr ⟨b, h, rfl⟩))
  · exact .passed ⟨b.toNat, by omega⟩ (regIdx_ok.mpr (by simp)) (by simp [regByte])

theorem spDec_checked (s : State) :
    Checked s.spDec fun t => 0 < s.sp.toNat ∧ t = BitVec.ofNat 8 (s.sp.toNat - 1) := by
  by_cases h : s.sp.toNat = 0
  · exact .raised _ (spDec_of_zero h) (.inl rfl)
  · exact .passed _ (spDec_of_pos (by omega)) ⟨by omega, rfl⟩

theorem spInc_checked (v : Byte) : Checked (spInc v) fun t => v.toNat + 1 ≤ 255 ∧ t = BitVec.ofNat 8 (v.toNat + 1) := by
  have := v.isLt
  by_cases h : v.toNat = 255
  · exact .raised _ (spInc_of_top h) (.inr (.inl rfl))
  · exact .passed _ (spInc_of_lt (by omega)) ⟨by omega, rfl⟩

@[simp] theorem regOf_regByte (r : RegNum) : regOf (regByte r) = r := by revert r; decide

/-- A byte that is not above 7 names the register of its number. -/
theorem regByte_regOf {b : Byte} (h : b.toNat ≤ 7) : regByte (regOf b) = b := by
  simp only [regByte, regOf, Fin.ofNat, Nat.mod_eq_of_lt (show b.toNat < 8 by omega)]
  simp

@[simp] theorem regIdx_regByte (r : RegNum) : regIdx (regByte r) = .ok r := regIdx_ok.mpr rfl

/-! ### Handlers -/

theorem aluHandler_checked (op : AluOp) (b c : Byte) (s : State) :
    Checked (aluHandler op b c s) fun t => ∃ r q, b = regByte r ∧ c = regByte q ∧ s.pc.toNat + 3 ≤ 255 ∧
      t = (s.alu op r q).setPc (BitVec.ofNat 8 (s.pc.toNat + 3)) := by
  have hp := s.pc.isLt
  refine (operandAddr_checked (by omega)).bind fun _ h1 => ?_
  refine (operandAddr_checked (by omega)).bind fun _ h2 => ?_
  refine (regIdx_checked b).bind fun r hr => ?_
  refine (regIdx_checked c).bind fun q hq => ?_
  refine (seq_checked (by omega)).bind fun a h3 => .pure ⟨r, q, hr, hq, h3.1, by rw [h3.2]⟩

theorem jumpIf_checked (taken : Bool) (b : Byte) (s : State) :
    Checked (jumpIf taken b s) fun t => ∃ r, b = regByte r ∧
      (taken = true ∧ s.pc.toNat + 1 ≤ 255 ∧ t = s.setPc (s.reg r) ∨
        taken = false ∧ s.pc.toNat + 2 ≤ 255 ∧ t = s.setPc (BitVec.ofNat 8 (s.pc.toNat + 2))) := by
  have hp := s.pc.isLt
  refine (operandAddr_checked (by omega)).bind fun _ h1 => ?_
  refine (regIdx_checked b).bind fun r hr => ?_
  cases taken with
  | true => exact .pure ⟨r, hr, .inl ⟨rfl, h1.1, rfl⟩⟩
  | false => exact (seq_checked (by omega)).bind fun a h => .pure ⟨r, hr, .inr ⟨rfl, h.1, by rw [h.2]⟩⟩

/-! ### All instructions -/

/-- Every instruction either commits or raises an address fault: nothing else can happen. -/
theorem exec_cases (i : Instr) (s : State) :
    (∃ t, Commit i s t ∧ exec i s = .next t) ∨ ∃ r, AddressFault r ∧ exec i s = .next (s.takeFault r) := by
  have hp := s.pc.isLt
  cases i with
  | hlt => exact .inl ⟨_, rfl, rfl⟩
  | ret =>
    refine Checked.transact (Q := Commit .ret s) ?_
    exact (spInc_checked s.sp).bind fun t h => .pure ⟨h.1, by rw [h.2]⟩
  | push b =>
    refine Checked.transact (Q := Commit (.push b) s) ?_
    refine (operandAddr_checked (by omega)).bind fun _ h1 => ?_
    refine (regIdx_checked b).bind fun r hr => ?_
    refine (spDec_checked s).bind fun t ht => ?_
    exact (seq_checked (by omega)).bind fun a ha => .pure ⟨r, hr, ha.1, ht.1, by rw [ha.2, ht.2]⟩
  | pop b =>
    refine Checked.transact (Q := Commit (.pop b) s) ?_
    refine (operandAddr_checked (by omega)).bind fun _ h1 => ?_
    refine (regIdx_checked b).bind fun r hr => ?_
    refine (spInc_checked _).bind fun t ht => ?_
    exact (seq_checked (by omega)).bind fun a ha => .pure ⟨r, hr, ha.1, ht.1, by rw [ha.2, ht.2]⟩
  | prn b =>
    refine Checked.transact (Q := Commit (.prn b) s) ?_
    refine (operandAddr_checked (by omega)).bind fun _ h1 => ?_
    refine (regIdx_checked b).bind fun r hr => ?_
    exact (seq_checked (by omega)).bind fun a ha => .pure ⟨r, hr, ha.1, by rw [ha.2]⟩
  | call b =>
    refine Checked.transact (Q := Commit (.call b) s) ?_
    refine (operandAddr_checked (by omega)).bind fun _ h1 => ?_
    refine (regIdx_checked b).bind fun r hr => ?_
    refine (spDec_checked s).bind fun t ht => ?_
    exact (seq_checked (by omega)).bind fun a ha => .pure ⟨r, hr, ha.1, ht.1, by rw [ha.2, ht.2]; rfl⟩
  | jmp b =>
    refine Checked.transact (Q := Commit (.jmp b) s) ?_
    refine (operandAddr_checked (by omega)).bind fun _ h1 => ?_
    exact (regIdx_checked b).bind fun r hr => .pure ⟨r, hr, h1.1, rfl⟩
  | jeq b => exact Checked.transact (Q := Commit (.jeq b) s) (jumpIf_checked _ b s)
  | jne b =>
    refine Checked.transact (Q := Commit (.jne b) s) ((jumpIf_checked _ b s).imp fun t h => ?_)
    simpa [Commit] using h
  | ldi b v =>
    refine Checked.transact (Q := Commit (.ldi b v) s) ?_
    refine (operandAddr_checked (by omega)).bind fun _ h1 => ?_
    refine (operandAddr_checked (by omega)).bind fun _ h2 => ?_
    refine (regIdx_checked b).bind fun r hr => ?_
    exact (seq_checked (by omega)).bind fun a ha => .pure ⟨r, hr, ha.1, by rw [ha.2]⟩
  | add b c => exact Checked.transact (Q := Commit (.add b c) s) (aluHandler_checked .add b c s)
  | mult b c => exact Checked.transact (Q := Commit (.mult b c) s) (aluHandler_checked .mult b c s)
  | cmp b c => exact Checked.transact (Q := Commit (.cmp b c) s) (aluHandler_checked .compare b c s)

/-- Inversion: a next state of `exec` is the instruction's commit, or what an address fault leaves. -/
theorem exec_next {i : Instr} {s t : State} (h : exec i s = .next t) :
    Commit i s t ∨ ∃ r, AddressFault r ∧ t = s.takeFault r := by
  obtain ⟨u, hu, e⟩ | ⟨r, hr, e⟩ := exec_cases i s
  · rw [e] at h; cases h; exact .inl hu
  · rw [e] at h; cases h; exact .inr ⟨r, hr, rfl⟩

/-- What no instruction's commit changes, or only HLT's: the fault record and the run state. -/
theorem commit_run {i : Instr} {s t : State} (h : Commit i s t) :
    t.faultRecord = s.faultRecord ∧ t.run = (if i = .hlt then .halted else s.run) := by
  cases i <;> simp only [Commit] at h
  case hlt => subst h; exact ⟨rfl, rfl⟩
  case ret => obtain ⟨_, rfl⟩ := h; exact ⟨rfl, rfl⟩
  case jeq | jne => obtain ⟨_, _, ⟨_, _, rfl⟩ | ⟨_, _, rfl⟩⟩ := h <;> exact ⟨rfl, rfl⟩
  case push | pop | call => obtain ⟨_, _, _, _, rfl⟩ := h; exact ⟨rfl, rfl⟩
  case prn | jmp | ldi => obtain ⟨_, _, _, rfl⟩ := h; exact ⟨rfl, rfl⟩
  case add | mult | cmp => obtain ⟨_, _, _, _, _, rfl⟩ := h; exact ⟨rfl, rfl⟩

/-- Only CMP's commit changes the flags. -/
theorem commit_flags {i : Instr} {s t : State} (hi : i.mnemonic ≠ .CMP) (h : Commit i s t) : t.flags = s.flags := by
  cases i <;> simp only [Commit] at h
  case hlt => subst h; rfl
  case ret => obtain ⟨_, rfl⟩ := h; rfl
  case jeq | jne => obtain ⟨_, _, ⟨_, _, rfl⟩ | ⟨_, _, rfl⟩⟩ := h <;> rfl
  case push | pop | call => obtain ⟨_, _, _, _, rfl⟩ := h; rfl
  case prn | jmp | ldi => obtain ⟨_, _, _, rfl⟩ := h; rfl
  case add | mult => obtain ⟨_, _, _, _, _, rfl⟩ := h; rfl
  case cmp => exact absurd rfl hi

/-! ### A check that fails ends the handler -/

theorem operandAddr_error_bind {β : Type} {s : State} {k : Nat} (h : s.pc.toNat + k = 256)
    (f : Byte → Except Raise β) : (s.operandAddr k >>= f) = .error (addressOutOfRange .mem 256) := by
  rw [operandAddr_of_gt (by omega), show ((s.pc.toNat : Int) + (k : Nat)) = 256 by omega]; rfl

theorem seq_error_bind {β : Type} {s : State} {k : Nat} (h : s.pc.toNat + k = 256) (f : Byte → Except Raise β) :
    (s.seq k >>= f) = .error (addressOutOfRange .mem 256) := operandAddr_error_bind h f

theorem regIdx_error_bind {β : Type} {b : Byte} (h : 7 < b.toNat) (f : RegNum → Except Raise β) :
    (regIdx b >>= f) = .error (addressOutOfRange .reg b.toNat) := by
  rw [regIdx_of_gt h]; rfl

theorem spDec_error_bind {β : Type} {s : State} (h : s.sp.toNat = 0) (f : Byte → Except Raise β) :
    (s.spDec >>= f) = .error (addressOutOfRange .mem (-1)) := by
  rw [spDec_of_zero h]; rfl

theorem spInc_error_bind {β : Type} {v : Byte} (h : v.toNat = 255) (f : Byte → Except Raise β) :
    (spInc v >>= f) = .error (addressOutOfRange .mem 256) := by
  rw [spInc_of_top h]; rfl

/-! ### Completion -/

theorem regIdx_bind {β : Type} (r : RegNum) (f : RegNum → Except Raise β) : (regIdx (regByte r) >>= f) = f r := by
  rw [regIdx_regByte]; rfl

theorem operandAddr_bind {β : Type} {s : State} {k : Nat} (h : s.pc.toNat + k ≤ 255) (f : Byte → Except Raise β) :
    (s.operandAddr k >>= f) = f (BitVec.ofNat 8 (s.pc.toNat + k)) := by
  rw [operandAddr_of_le h]; rfl

theorem seq_bind {β : Type} {s : State} {n : Nat} (h : s.pc.toNat + n ≤ 255) (f : Byte → Except Raise β) :
    (s.seq n >>= f) = f (BitVec.ofNat 8 (s.pc.toNat + n)) := by
  rw [seq_of_le h]; rfl

theorem spDec_bind {β : Type} {s : State} (h : 0 < s.sp.toNat) (f : Byte → Except Raise β) :
    (s.spDec >>= f) = f (BitVec.ofNat 8 (s.sp.toNat - 1)) := by
  rw [spDec_of_pos h]; rfl

theorem spInc_bind {β : Type} {v : Byte} (h : v.toNat + 1 ≤ 255) (f : Byte → Except Raise β) :
    (spInc v >>= f) = f (BitVec.ofNat 8 (v.toNat + 1)) := by
  rw [spInc_of_lt (by omega)]; rfl

theorem aluHandler_ok {op : AluOp} {r q : RegNum} {s : State} (h : s.pc.toNat + 3 ≤ 255) :
    aluHandler op (regByte r) (regByte q) s = .ok ((s.alu op r q).setPc (BitVec.ofNat 8 (s.pc.toNat + 3))) := by
  rw [aluHandler, operandAddr_bind (by omega), operandAddr_bind (by omega), regIdx_bind, regIdx_bind, seq_bind h]; rfl

/-- Where an instruction's checks pass, `exec` answers its commit. -/
theorem exec_of_commit {i : Instr} {s t : State} (h : Commit i s t) : exec i s = .next t := by
  cases i with
  | hlt => subst h; rfl
  | ret =>
    obtain ⟨h, rfl⟩ := h
    rw [exec, execRet, spInc_bind h]; rfl
  | push b =>
    obtain ⟨r, rfl, h, hs, rfl⟩ := h
    rw [exec, execPush, operandAddr_bind (by omega), regIdx_bind, spDec_bind hs, seq_bind h]; rfl
  | pop b =>
    obtain ⟨r, rfl, h, hs, rfl⟩ := h
    rw [exec, execPop, operandAddr_bind (by omega), regIdx_bind, spInc_bind hs, seq_bind h]; rfl
  | prn b =>
    obtain ⟨r, rfl, h, rfl⟩ := h
    rw [exec, execPrn, operandAddr_bind (by omega), regIdx_bind, seq_bind h]; rfl
  | call b =>
    obtain ⟨r, rfl, h, hs, rfl⟩ := h
    rw [exec, execCall, operandAddr_bind (by omega), regIdx_bind, spDec_bind hs, seq_bind h]; rfl
  | jmp b =>
    obtain ⟨r, rfl, h, rfl⟩ := h
    rw [exec, execJmp, operandAddr_bind h, regIdx_bind]; rfl
  | jeq b =>
    obtain ⟨r, rfl, ⟨he, h, rfl⟩ | ⟨he, h, rfl⟩⟩ := h
    · rw [exec, execJeq, he, jumpIf, operandAddr_bind h, regIdx_bind]; rfl
    · rw [exec, execJeq, he, jumpIf, operandAddr_bind (by omega), regIdx_bind]; exact congrArg (transact s) (seq_bind h _)
  | jne b =>
    obtain ⟨r, rfl, ⟨he, h, rfl⟩ | ⟨he, h, rfl⟩⟩ := h
    · rw [exec, execJne, he, jumpIf, operandAddr_bind h, regIdx_bind]; rfl
    · rw [exec, execJne, he, jumpIf, operandAddr_bind (by omega), regIdx_bind]; exact congrArg (transact s) (seq_bind h _)
  | ldi b v =>
    obtain ⟨r, rfl, h, rfl⟩ := h
    rw [exec, execLdi, operandAddr_bind (by omega), operandAddr_bind (by omega), regIdx_bind, seq_bind h]; rfl
  | add b c =>
    obtain ⟨r, q, rfl, rfl, h, rfl⟩ := h
    rw [exec, execAdd, aluHandler_ok h]; rfl
  | mult b c =>
    obtain ⟨r, q, rfl, rfl, h, rfl⟩ := h
    rw [exec, execMult, aluHandler_ok h]; rfl
  | cmp b c =>
    obtain ⟨r, q, rfl, rfl, h, rfl⟩ := h
    rw [exec, execCmp, aluHandler_ok h]; rfl

end Sys2Proof.Machine
end

