-- ==== Sys2Proof/Laws/PerInstr.lean ====
section
/-! SUPPORT. The per-instruction family `EncodedLength`: an instruction's encoding has the length that the table gives
its mnemonic (R50, R57). One lemma per constructor of `Instr`. -/

namespace Sys2Proof.Laws.EncodedLength

/-- The length column of R55. -/
def Statement (i : Instr) : Prop := (encode i).length = i.mnemonic.length

theorem hlt : Statement .hlt := rfl
theorem ret : Statement .ret := rfl
theorem push (a : Byte) : Statement (.push a) := rfl
theorem pop (a : Byte) : Statement (.pop a) := rfl
theorem prn (a : Byte) : Statement (.prn a) := rfl
theorem call (a : Byte) : Statement (.call a) := rfl
theorem jmp (a : Byte) : Statement (.jmp a) := rfl
theorem jeq (a : Byte) : Statement (.jeq a) := rfl
theorem jne (a : Byte) : Statement (.jne a) := rfl
theorem ldi (a imm : Byte) : Statement (.ldi a imm) := rfl
theorem add (a b : Byte) : Statement (.add a b) := rfl
theorem mult (a b : Byte) : Statement (.mult a b) := rfl
theorem cmp (a b : Byte) : Statement (.cmp a b) := rfl

end Sys2Proof.Laws.EncodedLength
end

