-- ==== Sys2Proof/Laws/Step.lean ====
section
/-! SUPPORT. What a fetch can answer and what a step can do, each said once. -/

namespace Sys2Proof.Machine

/-- An address fault is taken in a state whatever raised it; this is its record. -/
theorem takeFault_addressOutOfRange (s : State) (k : AddrKind) (v : Int) :
    s.takeFault (addressOutOfRange k v) = { s with
      run := .faulted
      faultRecord := some { cause := .addressOutOfRange, opcode := s.memRead s.pc, addr := s.pc, info := some (k, v) } } :=
  rfl

theorem operand_of_le {s : State} {k : Nat} (h : s.pc.toNat + k ≤ 255) :
    s.operand k = .ok (s.memRead (BitVec.ofNat 8 (s.pc.toNat + k))) := by
  rw [State.operand, operandAddr_bind h]; rfl

theorem operand_of_gt {s : State} {k : Nat} (h : 255 < s.pc.toNat + k) :
    s.operand k = .error (addressOutOfRange .mem (s.pc.toNat + k)) := by
  rw [State.operand, operandAddr_of_gt h]; rfl

/-- The bytes after the opcode byte, by where `pc` stands. -/
theorem bytesAfterPc_of_le {s : State} (h : s.pc.toNat ≤ 253) :
    s.bytesAfterPc = [s.memRead (BitVec.ofNat 8 (s.pc.toNat + 1)), s.memRead (BitVec.ofNat 8 (s.pc.toNat + 2))] := by
  rw [State.bytesAfterPc, operand_of_le (by omega), operand_of_le (by omega)]

theorem bytesAfterPc_at_254 {s : State} (h : s.pc.toNat = 254) :
    s.bytesAfterPc = [s.memRead (BitVec.ofNat 8 (s.pc.toNat + 1))] := by
  rw [State.bytesAfterPc, operand_of_le (by omega), operand_of_gt (by omega)]

theorem bytesAfterPc_at_255 {s : State} (h : s.pc.toNat = 255) : s.bytesAfterPc = [] := by
  rw [State.bytesAfterPc, operand_of_gt (by omega)]

/-- There are two bytes after `pc`, or as many as memory has. -/
theorem bytesAfterPc_length (s : State) : s.bytesAfterPc.length = min 2 (255 - s.pc.toNat) := by
  have := s.pc.isLt
  by_cases h : s.pc.toNat ≤ 253
  · rw [bytesAfterPc_of_le h]; simp only [List.length_cons, List.length_nil]; omega
  · by_cases h' : s.pc.toNat = 254
    · rw [bytesAfterPc_at_254 h', h']; rfl
    · have h'' : s.pc.toNat = 255 := by omega
      rw [bytesAfterPc_at_255 h'', h'']; rfl

/-- A fetch answers an instruction whose opcode byte is at `pc`, raises `InvalidInstruction` on a byte that is no
opcode, or raises the address fault of an operand byte at address 256. -/
theorem fetchInstr_cases (s : State) :
    (∃ i rest, fetchInstr s = .ok i ∧ s.memRead s.pc = opcode i.mnemonic ∧ s.bytesAfterPc = i.operandBytes ++ rest) ∨
      (decodeOpcode (s.memRead s.pc) = none ∧ fetchInstr s = .error invalidInstruction) ∨
      (s.memRead s.pc ≠ opcode .HLT ∧ (decodeOpcode (s.memRead s.pc)).isSome = true ∧
        fetchInstr s = .error (addressOutOfRange .mem 256)) := by
  unfold fetchInstr
  cases hd : decodeOpcode (s.memRead s.pc) with
  | none => exact .inr (.inl ⟨rfl, by rw [decode_cons_of_none hd]; rfl⟩)
  | some m =>
    cases ht : takeOperands m s.bytesAfterPc with
    | ok p =>
      obtain ⟨i, rest⟩ := p
      obtain ⟨rfl, hb⟩ := takeOperands_ok ht
      exact .inl ⟨i, rest, by rw [decode_cons_of_some hd, ht], opcode_of_decodeOpcode hd, hb⟩
    | error e =>
      obtain ⟨hl, rfl⟩ := takeOperands_error ht
      refine .inr (.inr ⟨?_, rfl, ?_⟩)
      · intro eo
        rw [eo, decodeOpcode_opcode] at hd
        cases hd
        simp [Mnemonic.format, Format.operandCount] at hl
      have hm : m.format.operandCount ≤ 2 := by cases m <;> decide
      have := s.pc.isLt
      rw [bytesAfterPc_length] at hl
      have e : ((s.pc.toNat : Int) + (s.bytesAfterPc.length + 1 : Nat)) = 256 := by
        rw [bytesAfterPc_length]; omega
      rw [decode_cons_of_some hd, ht]
      simp only [State.decodeRaise, e]

theorem step_of_running {s : State} (h : s.run = .running) :
    step s = match fetchInstr s with
      | .ok i => exec i s
      | .error r => .next (s.takeFault r) := by
  cases s; cases h; rfl

theorem step_of_not_running {s : State} (h : s.run ≠ .running) : step s = .next s := by
  unfold step; split <;> first | rfl | contradiction

/-- Everything a step can do: nothing, when the core is not running; else commit the instruction at `pc`, or take an
invalid-instruction fault on a byte that is no opcode, or an address fault on one that is. -/
theorem step_next {s t : State} (h : step s = .next t) :
    (s.run ≠ .running ∧ t = s) ∨
      (s.run = .running ∧
        ((∃ i, s.memRead s.pc = opcode i.mnemonic ∧ fetchInstr s = .ok i ∧ Commit i s t) ∨
          (decodeOpcode (s.memRead s.pc) = none ∧ t = s.takeFault invalidInstruction) ∨
          ∃ r, s.memRead s.pc ≠ opcode .HLT ∧ (decodeOpcode (s.memRead s.pc)).isSome = true ∧ AddressFault r ∧
            t = s.takeFault r)) := by
  by_cases hr : s.run = .running
  · refine .inr ⟨hr, ?_⟩
    rw [step_of_running hr] at h
    obtain ⟨i, rest, hf, ho, -⟩ | ⟨hd, hf⟩ | ⟨hn, hd, hf⟩ := fetchInstr_cases s
    · rw [hf] at h
      obtain hc | ⟨r, ha, rfl⟩ := exec_next h
      · exact .inl ⟨i, ho, hf, hc⟩
      · refine .inr (.inr ⟨r, ?_, by rw [ho, decodeOpcode_opcode]; rfl, ha, rfl⟩)
        intro eo
        obtain rfl : i = .hlt := by
          have := opcode_injective (ho.symm.trans eo)
          cases i <;> first | rfl | cases this
        simp only [exec, execHlt, transact_ok, Host.Outcome.next.injEq] at h
        exact absurd (congrArg State.run h) (by simp)
    · rw [hf] at h; cases h; exact .inr (.inl ⟨hd, rfl⟩)
    · rw [hf] at h; cases h; exact .inr (.inr ⟨_, hn, hd, .inr (.inl rfl), rfl⟩)
  · rw [step_of_not_running hr] at h; cases h; exact .inl ⟨hr, rfl⟩

end Sys2Proof.Machine
end

