-- ==== Sys2Proof/Tests/Slice0.lean ====
section
/-! SUPPORT. The author's own tests. Decoding: a word of every constructor, written out bit by bit from the encodings of
rule R55. WellFormed: an ill-formed term for each register operand. One step of every instruction, with the
expected result from the spec's worked examples and vectors (95_test_vectors.md; the vector is named). Then, for
every obligation with hypotheses, a witness that meets them all together, one for each clause. -/

namespace Sys2Proof.Tests

open Sys2Proof.Machine

/-- A running core at `pc`, with the given registers and memory. -/
def coreAt (pc : Byte) (regs : Vector Byte 8) (mem : Memory) : State :=
  { State.reset with pc := pc, regs := regs, mem := mem, run := .running }

/-- The registers `x[0]`, `x[1]`, zeros, and SP. -/
def regsOf (x0 x1 sp : Byte) : Vector Byte 8 := #v[x0, x1, 0, 0, 0, 0, 0, sp]

/-- The flag E set, L and G clear. -/
def withE (s : State) : State := { s with flags := { e := true, l := false, g := false } }

/-- A property of the state after one step. -/
def after (s : State) (p : State → Bool) : Bool :=
  match step s with
  | .next t => p t
  | .fault _ => false
  | .refused _ => false

/-- The fault record of a faulted state is this one, and nothing but `run` and the record has changed. -/
def faultedWith (s : State) (c : FaultCause) (info : Option (AddrKind × Int)) (t : State) : Bool :=
  t == { s with
    run := .faulted
    faultRecord := some { cause := c, opcode := s.memRead s.pc, addr := s.pc, info := info } }

/-! ### Decoding (R55) -/

theorem test_decode_hlt : decode [0b00000001#8] = .ok (.hlt, []) := by rfl
theorem test_decode_ret : decode [0b00010001#8] = .ok (.ret, []) := by rfl
theorem test_decode_push : decode [0b01000101#8, 0b00000101#8] = .ok (.push 5, []) := by rfl
theorem test_decode_pop : decode [0b01000110#8, 0b00000111#8] = .ok (.pop 7, []) := by rfl
theorem test_decode_prn : decode [0b01000111#8, 0b00000001#8] = .ok (.prn 1, []) := by rfl
theorem test_decode_call : decode [0b01010000#8, 0b00000010#8] = .ok (.call 2, []) := by rfl
theorem test_decode_jmp : decode [0b01010100#8, 0b00000011#8] = .ok (.jmp 3, []) := by rfl
theorem test_decode_jeq : decode [0b01010101#8, 0b00000100#8] = .ok (.jeq 4, []) := by rfl
theorem test_decode_jne : decode [0b01010110#8, 0b00000110#8] = .ok (.jne 6, []) := by rfl
theorem test_decode_ldi : decode [0b10000010#8, 0b00000001#8, 0b11111111#8] = .ok (.ldi 1 255, []) := by rfl
theorem test_decode_add : decode [0b10100000#8, 0b00000001#8, 0b00000010#8] = .ok (.add 1 2, []) := by rfl
theorem test_decode_mult : decode [0b10100010#8, 0b00000011#8, 0b00000100#8] = .ok (.mult 3 4, []) := by rfl
theorem test_decode_cmp : decode [0b10100111#8, 0b00000110#8, 0b00000101#8] = .ok (.cmp 6 5, []) := by rfl
theorem test_decode_invalid : decode [0b10100001#8, 0#8, 0#8] = .error (.invalidOpcode 0xA1#8) := by rfl
theorem test_decode_missing : decode [0b10100000#8, 0b00000001#8] = .error (.missingByte 2) := by rfl
theorem test_decode_table_word : decodeTableWord 24 0x0807A0 = some (.add 7 8) := by decide
theorem test_decode_table_short : decodeTableWord 8 0x54 = some (.jmp 0) := by decide

/-! ### WellFormed: each register operand above 7 is refused (R52, R61) -/

theorem test_wf_ok : (Instr.ldi 7 255).wellFormed = true := by decide
theorem test_wf_push : (Instr.push 8).wellFormed = false := by decide
theorem test_wf_pop : (Instr.pop 255).wellFormed = false := by decide
theorem test_wf_prn : (Instr.prn 9).wellFormed = false := by decide
theorem test_wf_call : (Instr.call 8).wellFormed = false := by decide
theorem test_wf_jmp : (Instr.jmp 16).wellFormed = false := by decide
theorem test_wf_jeq : (Instr.jeq 12).wellFormed = false := by decide
theorem test_wf_jne : (Instr.jne 8).wellFormed = false := by decide
theorem test_wf_ldi : (Instr.ldi 8 0).wellFormed = false := by decide
theorem test_wf_add_first : (Instr.add 8 0).wellFormed = false := by decide
theorem test_wf_add_second : (Instr.add 0 8).wellFormed = false := by decide
theorem test_wf_mult_first : (Instr.mult 128 1).wellFormed = false := by decide
theorem test_wf_mult_second : (Instr.mult 1 128).wellFormed = false := by decide
theorem test_wf_cmp_first : (Instr.cmp 9 10).wellFormed = false := by decide
theorem test_wf_cmp_second : (Instr.cmp 7 8).wellFormed = false := by decide

/-! ### One step of every instruction -/

/-- X1: reset and started with nothing loaded. -/
theorem test_invalid_opcode :
    after (State.reset.setRun .running) (faultedWith (State.reset.setRun .running) .invalidInstruction none) = true := by
  decide

/-- A core that is not started does nothing (R70). -/
theorem test_idle : after State.reset (· == State.reset) = true := by decide

/-- X4: HLT at the last address. -/
theorem test_hlt :
    after (coreAt 0xFF (regsOf 0xFF 0 0xF4) [(255, 0x01)])
      (· == { coreAt 0xFF (regsOf 0xFF 0 0xF4) [(255, 0x01)] with run := .halted }) = true := by decide

/-- M2: LDI R7,0x20 moves the stack pointer. -/
theorem test_ldi :
    after (coreAt 0 (regsOf 0 0 0xF4) [(0, 0x82), (1, 7), (2, 0x20)])
      (· == coreAt 3 (regsOf 0 0 0x20) [(0, 0x82), (1, 7), (2, 0x20)]) = true := by decide

/-- M8: LDI at 0xFD needs the address 256, and the register is not loaded. -/
theorem test_ldi_at_top :
    after (coreAt 0xFD (regsOf 0xFD 0 0xF4) [(253, 0x82), (254, 1), (255, 5)])
      (faultedWith (coreAt 0xFD (regsOf 0xFD 0 0xF4) [(253, 0x82), (254, 1), (255, 5)]) .addressOutOfRange
        (some (.mem, 256))) = true := by decide

/-- M5: PRN R0 outputs 72. -/
theorem test_prn :
    after (coreAt 0 (regsOf 72 0 0xF4) [(0, 0x47)])
      (· == { coreAt 2 (regsOf 72 0 0xF4) [(0, 0x47)] with out := [72] }) = true := by decide

/-- M11: a faulting PRN outputs nothing. -/
theorem test_prn_at_top :
    after (coreAt 0xFE (regsOf 0xFE 0 0xF4) [(254, 0x47), (255, 1)])
      (faultedWith (coreAt 0xFE (regsOf 0xFE 0 0xF4) [(254, 0x47), (255, 1)]) .addressOutOfRange (some (.mem, 256))) = true := by
  decide

/-- A1: 200 + 100 = 44. -/
theorem test_add :
    after (coreAt 0 (regsOf 200 100 0xF4) [(0, 0xA0), (2, 1)])
      (· == coreAt 3 (regsOf 44 100 0xF4) [(0, 0xA0), (2, 1)]) = true := by decide

/-- A16: the second operand byte names no register. -/
theorem test_add_bad_register :
    after (coreAt 0 (regsOf 200 100 0xF4) [(0, 0xA0), (2, 8)])
      (faultedWith (coreAt 0 (regsOf 200 100 0xF4) [(0, 0xA0), (2, 8)]) .addressOutOfRange (some (.reg, 8))) = true := by
  decide

/-- A9a: 255 * 255 = 1. -/
theorem test_mult :
    after (coreAt 0 (regsOf 255 255 0xF4) [(0, 0xA2), (2, 1)])
      (· == coreAt 3 (regsOf 1 255 0xF4) [(0, 0xA2), (2, 1)]) = true := by decide

/-- A9h: MULT R0,R0 with 17 gives 289 - 256. -/
theorem test_mult_same : after (coreAt 0 (regsOf 17 0 0xF4) [(0, 0xA2)]) (·.reg 0 == 33) = true := by decide

/-- A13: the comparison is unsigned. -/
theorem test_cmp_unsigned :
    after (coreAt 0 (regsOf 200 100 0xF4) [(0, 0xA7), (2, 1)])
      (·.flags == { e := false, l := false, g := true }) = true := by decide

/-- A10: equal values clear L and G. -/
theorem test_cmp_equal :
    after (coreAt 0 (regsOf 5 5 0xF4) [(0, 0xA7), (2, 1)])
      (·.flags == { e := true, l := false, g := false }) = true := by decide

/-- K4: PUSH R7 stores the decremented SP. -/
theorem test_push_sp :
    after (coreAt 0 (regsOf 0 0 0xF4) [(0, 0x45), (1, 7)])
      (· == coreAt 2 (regsOf 0 0 0xF3) [(0, 0x45), (1, 7), (243, 0xF3)]) = true := by decide

/-- K12: the register check comes before the SP check and the `Seq` check. -/
theorem test_push_priority :
    after (coreAt 0xFE (regsOf 0xFE 0 0) [(254, 0x45), (255, 9)])
      (faultedWith (coreAt 0xFE (regsOf 0xFE 0 0) [(254, 0x45), (255, 9)]) .addressOutOfRange (some (.reg, 9))) = true := by
  decide

/-- K6: POP R7 leaves the popped byte plus one. -/
theorem test_pop_sp :
    after (coreAt 0 (regsOf 0 0 0xF3) [(0, 0x46), (1, 7), (243, 0x20)])
      (· == coreAt 2 (regsOf 0 0 0x21) [(0, 0x46), (1, 7), (243, 0x20)]) = true := by decide

/-- K8: POP with SP = 0xFF faults and loads nothing. -/
theorem test_pop_at_top :
    after (coreAt 0 (regsOf 1 0 0xFF) [(0, 0x46)])
      (faultedWith (coreAt 0 (regsOf 1 0 0xFF) [(0, 0x46)]) .addressOutOfRange (some (.mem, 256))) = true := by decide

/-- C1: CALL R1 pushes 0x08 and jumps to 0x0B. -/
theorem test_call :
    after (coreAt 6 (regsOf 0 0x0B 0xF4) [(6, 0x50), (7, 1)])
      (· == coreAt 0x0B (regsOf 0 0x0B 0xF3) [(6, 0x50), (7, 1), (243, 8)]) = true := by decide

/-- C5: CALL with SP = 0x00. -/
theorem test_call_no_stack :
    after (coreAt 0 (regsOf 0 0 0) [(0, 0x50)])
      (faultedWith (coreAt 0 (regsOf 0 0 0) [(0, 0x50)]) .addressOutOfRange (some (.mem, -1))) = true := by decide

/-- C2: RET jumps to the popped byte. -/
theorem test_ret :
    after (coreAt 0x0E (regsOf 0 0 0xF3) [(14, 0x11), (243, 8)])
      (· == coreAt 8 (regsOf 0 0 0xF4) [(14, 0x11), (243, 8)]) = true := by decide

/-- C3, last step: RET with SP = 0xFF. -/
theorem test_ret_at_top :
    after (coreAt 0 (regsOf 0 0 0xFF) [(0, 0x11)])
      (faultedWith (coreAt 0 (regsOf 0 0 0xFF) [(0, 0x11)]) .addressOutOfRange (some (.mem, 256))) = true := by decide

/-- C8: JMP at 0xFE is legal. -/
theorem test_jmp :
    after (coreAt 0xFE (regsOf 0 0x40 0xF4) [(254, 0x54), (255, 1)])
      (· == coreAt 0x40 (regsOf 0 0x40 0xF4) [(254, 0x54), (255, 1)]) = true := by decide

/-- B1: JEQ is taken when E is set. -/
theorem test_jeq_taken :
    after (withE (coreAt 0x10 (regsOf 0x20 0 0xF4) [(16, 0x55)])) (·.pc == 0x20) = true := by decide

/-- B8: the operand of a JEQ that is not taken is validated. -/
theorem test_jeq_bad_register :
    after (coreAt 0 (regsOf 0 0 0xF4) [(0, 0x55), (1, 0x0C)])
      (faultedWith (coreAt 0 (regsOf 0 0 0xF4) [(0, 0x55), (1, 0x0C)]) .addressOutOfRange (some (.reg, 12))) = true := by
  decide

/-- B3: JNE is taken when E is clear. -/
theorem test_jne_taken : after (coreAt 0x10 (regsOf 0x20 0 0xF4) [(16, 0x56)]) (·.pc == 0x20) = true := by decide

/-- B4: JNE falls through when E is set. -/
theorem test_jne_not_taken :
    after (withE (coreAt 0x10 (regsOf 0x20 0 0xF4) [(16, 0x56)])) (·.pc == 0x12) = true := by decide

/-- The first program of 95_test_vectors.md loads and starts at 0x00 (R143, R144). -/
theorem test_boot :
    boot [0x82, 0x00, 0x08] = some (coreAt 0 (regsOf 0 0 0xF4) [(0, 0x82), (2, 0x08)]) := by decide

/-! ### Witnesses: the hypotheses of each obligation can be met -/

/-- A running core on a HLT, in a canonical state. -/
def onHlt : State := coreAt 0 (regsOf 0 0 0xF4) [(0, 0x01)]

theorem onHlt_inv : onHlt.Inv :=
  { memory := by decide
    flags := by decide
    recorded := by decide
    record := fun _ h => nomatch h
    halted := fun h => nomatch h
    idle := fun h => nomatch h }

/-- A core that halted. -/
def stopped : State := { onHlt with run := .halted }

theorem witness_OpcodeDecoderTotal : decodeOpcode 0x54#8 = some .JMP ∧ decodeOpcode 0x53#8 = none := by decide

theorem witness_DecodeIffEncode : decode [0x82#8, 7#8, 9#8, 1#8] = .ok (.ldi 7 9, [1#8]) := by rfl

theorem witness_StepRunsDecoded : onHlt.run = .running ∧
    decode (onHlt.memRead onHlt.pc :: onHlt.bytesAfterPc) = .ok (.hlt, [0#8, 0#8]) := ⟨rfl, rfl⟩

/-- At the top of memory: a JMP whose operand is the last byte. -/
theorem witness_StepRunsBytesAtPc :
    let s := coreAt 0xFE (regsOf 0 0 0xF4) [(254, 0x54), (255, 1)]
    s.run = .running ∧ s.pc.toNat + (encode (.jmp 1)).length ≤ 256 ∧
      ∀ k : Fin 2, s.memRead (BitVec.ofNat 8 (s.pc.toNat + k)) = [0x54#8, 1#8][k] := by decide

theorem witness_FetchWordRuns :
    decodeTableWord 16 0x0745 = some (.push 7) ∧ (coreAt 253 (regsOf 0 0 0) []).pc.toNat ≤ 253 := by decide

theorem witness_InvalidOpcodeFaults :
    (coreAt 0 (regsOf 0 0 0) []).run = .running ∧ ∀ m, (coreAt 0 (regsOf 0 0 0) []).memRead (coreAt 0 (regsOf 0 0 0) []).pc ≠ opcode m :=
  ⟨rfl, fun m => by cases m <;> decide⟩

theorem witness_StoppedCoreDoesNothing : State.reset.run ≠ .running := by decide

theorem witness_TerminalStatesStay : stopped.run = .halted ∧ (faulted onHlt .invalidInstruction none).run = .faulted := by
  decide

theorem witness_RunTransitions : onHlt.run = .running ∧ after onHlt (· == stopped) = true := by decide

theorem witness_JumpToItselfNeverStops :
    let s := coreAt 0xFE (regsOf 0xFE 0 0) [(254, 0x54)]
    s.run = .running ∧ s.pc.toNat ≤ 254 ∧ s.memRead s.pc = opcode .JMP ∧ s.memRead (s.pc + 1) = regByte 0 ∧
      s.reg 0 = s.pc := by decide

/-- LDI's two clauses at their boundary: 0xFC completes, 0xFD faults. -/
theorem witness_LdiResult : (coreAt 0xFC (regsOf 0 0 0) []).pc.toNat ≤ 0xFC ∧ 0xFD ≤ (coreAt 0xFD (regsOf 0 0 0) []).pc.toNat := by
  decide

theorem witness_PrnResult : (coreAt 0xFD (regsOf 0 0 0) []).pc.toNat ≤ 0xFD := by decide

/-- One state for ADD, MULT, CMP, CMP's flags, commutation and the flag rule: `pc` at its highest value. -/
theorem witness_AluResults : (coreAt 0xFC (regsOf 200 100 0xF4) []).pc.toNat ≤ 0xFC := by decide

/-- The flag rule's hypotheses about an instruction and about a step that is no CMP. -/
theorem witness_FlagsOnlyByCmp :
    (Instr.add 0 1).mnemonic ≠ .CMP ∧ (Instr.add 0 1).mnemonic ≠ .JEQ ∧ (Instr.add 0 1).mnemonic ≠ .JNE ∧
      (Instr.jeq 0).mnemonic ≠ .CMP ∧ onHlt.memRead onHlt.pc ≠ opcode .CMP ∧ after onHlt (· == stopped) = true := by
  decide

/-- PUSH and CALL at the boundary of both hypotheses: `pc` at 0xFD and SP at 1. -/
theorem witness_PushCallResult :
    let s := coreAt 0xFD (regsOf 0 0 1) []
    s.pc.toNat ≤ 0xFD ∧ 0 < s.sp.toNat ∧ storeAddr s (.push (regByte 7)) = some 0 ∧
      storeAddr s (.call (regByte 0)) = some 0 := by decide

theorem witness_PopResult :
    let s := coreAt 0xFD (regsOf 0 0 254) []
    let u := coreAt 0xFD (regsOf 0 0 255) [(255, 254)]
    s.pc.toNat ≤ 0xFD ∧ (0 : RegNum) ≠ 7 ∧ s.sp.toNat < 255 ∧ u.pc.toNat ≤ 0xFD ∧ (u.memRead u.sp).toNat < 255 := by
  decide

theorem witness_PushPopRoundTrip : (coreAt 0xFB (regsOf 0 0 1) []).pc.toNat ≤ 0xFB ∧ 0 < (coreAt 0xFB (regsOf 0 0 1) []).sp.toNat := by
  decide

theorem witness_RetResult : (coreAt 0xFF (regsOf 0 0 254) []).sp.toNat < 255 := by decide

theorem witness_JmpResult : (coreAt 0xFE (regsOf 0 0 0) []).pc.toNat ≤ 0xFE := by decide

/-- JEQ, JNE: both values of E, each at the highest `pc` of its clause. -/
theorem witness_JeqJneResult :
    let s := coreAt 0xFD (regsOf 0 0 0) []
    let u := coreAt 0xFE (regsOf 0 0 0) []
    (withE u).flags.e = true ∧ (withE u).pc.toNat ≤ 0xFE ∧ s.flags.e = false ∧ s.pc.toNat ≤ 0xFD ∧
      u.flags.e = false ∧ u.pc.toNat ≤ 0xFE ∧ (withE s).flags.e = true ∧ (withE s).pc.toNat ≤ 0xFD := by decide

/-- A CALL of a RET, at 0xFD. -/
theorem witness_CallThenRet :
    let s := coreAt 0xFD (regsOf 0 2 0xF4) [(2, 0x11), (253, 0x50), (254, 1)]
    s.run = .running ∧ s.pc.toNat ≤ 0xFD ∧ 0 < s.sp.toNat ∧ s.memRead s.pc = opcode .CALL ∧
      s.memRead (s.pc + 1) = regByte 1 ∧ after s (fun t => t.memRead t.pc == opcode .RET) = true := by decide

theorem witness_OperandPastTopFaults :
    255 < (coreAt 0xFE (regsOf 0 0 0) []).pc.toNat + (Instr.ldi 0 0).mnemonic.format.operandCount := by decide

theorem witness_RegisterByteAboveSevenFaults :
    let s := coreAt 0xFD (regsOf 0 0 0) []
    s.pc.toNat + (Instr.cmp 7 8).mnemonic.format.operandCount ≤ 255 ∧
      (Instr.cmp 7 8).regOperands.find? (fun c => 7 < c.toNat) = some 8#8 := by decide

theorem witness_StackPointerNeverWraps :
    let s := coreAt 0xFE (regsOf 0 0 0) []
    let u := coreAt 0xFE (regsOf 0 0 0xFF) [(255, 0xFF)]
    s.sp = 0x00#8 ∧ s.pc.toNat ≤ 0xFE ∧ u.sp = 0xFF#8 ∧ u.pc.toNat ≤ 0xFE ∧ (0 : RegNum) ≠ 7 ∧
      u.memRead u.sp = 0xFF#8 := by decide

theorem witness_ProgramCounterNeverWraps :
    let s := coreAt 0xFE (regsOf 0 0 1) []
    (Instr.call 0).wellFormed = true ∧ s.pc.toNat + (Instr.call 0).mnemonic.length = 256 ∧
      usesSeq s (.call 0) = true ∧ spStep s (.call 0) = some 0 := by decide

theorem witness_FirstFailingCheckDecides :
    firstFault (coreAt 0xFE (regsOf 0 0 0) []) (.push 9) = some (.reg, 9) ∧
      firstFault (coreAt 0xFE (regsOf 0 0 0) []) (.push 0) = some (.mem, -1) ∧
      firstFault (coreAt 0xFE (regsOf 0 0 1) []) (.push 0) = some (.mem, 256) ∧
      firstFault (coreAt 0xFD (regsOf 0 0 1) []) (.push 0) = none := by decide

theorem witness_FaultsArePrecise :
    let s := coreAt 0 (regsOf 0 0 0) []
    s.run = .running ∧ after s (·.run == .faulted) = true := by decide

/-- A record of the ALU cause stands in a state no run reaches; the step leaves it as it is. -/
theorem witness_UnsupportedAluUnreachable :
    let s := faulted onHlt .unsupportedAluOperation none
    s.faultRecord = some { cause := .unsupportedAluOperation, opcode := 1, addr := 0, info := none } ∧
      after s (· == s) = true := by decide

theorem witness_CauseCodes : causeCode (some { cause := .addressOutOfRange, opcode := 0, addr := 0, info := none }) = 2 := by
  decide

/-- An instruction that answers a next state, for the statements over all instructions: registers written and read,
the `pc` table, the memory frame and the output rule. -/
theorem witness_ExecAnswersNext :
    let s := coreAt 0 (regsOf 1 2 0xF4) [(0, 0x45)]
    s.run = .running ∧ exec (.push 0) s = .next (coreAt 2 (regsOf 1 2 0xF3) [(0, 0x45), (243, 1)]) ∧
      (1 : RegNum) ∉ regsRead s (.push 0) ∧ (1 : RegNum) ∉ regsWritten (.push 0) ∧
      ∀ d, storeAddr s (.push 0) = some d → (0x10 : Byte) ≠ d :=
  ⟨rfl, rfl, by decide, by decide, fun d h => by cases h; decide⟩

/-- The faulted clause of the `pc` table: a running core whose instruction answers a faulted next state (R125's
example), and an HLT and a CALL R7 for its two rows that rest on the spec's decisions D23 and D22. -/
theorem witness_ProgramCounterTable :
    let s := coreAt 0xFE (regsOf 0 0 0) [(254, 0x45), (255, 9)]
    let c := coreAt 0 (regsOf 0 0 0xF4) [(0, 0x50), (1, 7)]
    s.run = .running ∧ exec (.push 9) s = .next (faulted s .addressOutOfRange (some (.reg, 9))) ∧
      exec .hlt onHlt = .next stopped ∧ stopped.pc = onHlt.pc ∧
      c.run = .running ∧ after c (fun t => t.pc == 0xF3) = true :=
  ⟨rfl, rfl, rfl, rfl, rfl, by decide⟩

theorem witness_CanonicalMemoryExtensional :
    Memory.wf [(0, 1#8), (255, 2#8)] ∧ ∀ a, a < 256 → Memory.read [(0, 1#8), (255, 2#8)] a = Memory.read [(0, 1#8), (255, 2#8)] a :=
  ⟨by decide, fun _ _ => rfl⟩

theorem witness_StoreSeenByNextFetch :
    let s := coreAt 0xFC (regsOf 1 0 0xFF) [(252, 0x45)]
    let c := coreAt 0xFD (regsOf 0xFE 0 1) [(253, 0x50)]
    (s.run = .running ∧ s.pc.toNat ≤ 0xFD ∧ 0 < s.sp.toNat ∧ s.memRead (s.pc + 1) = regByte 0 ∧
      s.memRead s.pc = opcode .PUSH) ∧
    (c.run = .running ∧ c.pc.toNat ≤ 0xFD ∧ 0 < c.sp.toNat ∧ c.memRead (c.pc + 1) = regByte 0 ∧
      c.memRead c.pc = opcode .CALL) := by decide

/-- The clauses of `FetchSeesStore`, each met after a PUSH of `x[0]` with SP three above `pc`: the stored byte is HLT's
opcode; it is ADD's at 0xFE, whose second operand is past the top; it is no opcode. And a PUSH two above that stores
the register byte of the PRN that runs next (R39). -/
theorem witness_FetchSeesStore :
    after (coreAt 0xFC (regsOf 1 0 0xFF) [(252, 0x45)]) (fun t => t.memRead t.pc == opcode .HLT && t.pc == t.sp) = true ∧
    after (coreAt 0xFC (regsOf 0xA0 0 0xFF) [(252, 0x45)])
      (fun t => t.memRead t.pc == opcode .ADD && decide (255 < t.pc.toNat + Mnemonic.ADD.format.operandCount)) = true ∧
    after (coreAt 0 (regsOf 0 0 3) [(0, 0x45)]) (fun t => (decodeOpcode (t.memRead t.pc)).isNone) = true ∧
    after (coreAt 0 (regsOf 1 9 4) [(0, 0x45), (2, 0x47)]) (fun t => after t fun u => u.out == [9]) = true := by decide

theorem witness_StepKeepsInv : onHlt.Inv ∧ step onHlt = .next stopped := ⟨onHlt_inv, rfl⟩

theorem witness_HostKeepsInv : onHlt.Inv ∧ hostAct .reset onHlt = some State.reset := ⟨onHlt_inv, rfl⟩

theorem witness_ReachableStatesMeetInv : Reach (State.reset.setRun .running) :=
  .move (.host .start) .reset rfl

theorem witness_OnlyResetLeavesTerminal :
    stopped.run = .halted ∧ Move.core ≠ .host .reset ∧ move .core stopped = some stopped ∧
      move (.host .start) (faulted onHlt .invalidInstruction none) = some (faulted onHlt .invalidInstruction none) := by
  decide

theorem witness_HostProtocol :
    State.reset.run = .idle ∧ onHlt.run ≠ .idle ∧ stopped.run = .halted ∧ onHlt.run = .running := by decide

/-- An image of exactly 256 bytes, and one of 257. -/
theorem witness_BootLoadsImage :
    (List.replicate 256 (1 : Byte)).length ≤ 256 ∧ 256 < (List.replicate 257 (1 : Byte)).length :=
  ⟨Nat.le_of_eq List.length_replicate, by rw [List.length_replicate]; omega⟩

end Sys2Proof.Tests
end

section
/-! ## Memory: what a write does to reads (R5) -/

namespace Sys2Proof.Machine

@[simp] theorem memRead_memWrite_same (s : State) (a v : Byte) : (s.memWrite a v).memRead a = v := by
  rw [memRead_memWrite, if_pos rfl]

theorem memWrite_sameMemoryExcept (s : State) (a v : Byte) : SameMemoryExcept a s (s.memWrite a v) := by
  intro d hd
  rw [memRead_memWrite, if_neg hd]

/-- Settles O46: the cell and the other cells by `memRead_memWrite`; `State.memWrite` updates `mem` alone. -/
theorem readAfterWrite : Obligations.ReadAfterWrite :=
  fun s a v => ⟨memRead_memWrite_same s a v, memWrite_sameMemoryExcept s a v, rfl⟩

end Sys2Proof.Machine
end

section
/-! ## The flags: who writes them and who reads them (R16) -/

namespace Sys2Proof.Machine

variable {s t : State} {f : Flags} {i : Instr}

/-! ### Written only by CMP -/

theorem exec_flags (hi : i.mnemonic ≠ .CMP) (h : exec i s = .next t) : t.flags = s.flags := by
  obtain hc | ⟨r, -, rfl⟩ := exec_next h
  · exact commit_flags hi hc
  · exact takeFault_flags s r

theorem step_flags (hs : s.memRead s.pc ≠ opcode .CMP) (h : step s = .next t) : t.flags = s.flags := by
  obtain ⟨-, rfl⟩ | ⟨-, ⟨i, ho, -, hc⟩ | ⟨-, rfl⟩ | ⟨r, -, -, -, rfl⟩⟩ := step_next h
  · rfl
  · exact commit_flags (fun hm => hs (hm ▸ ho)) hc
  · exact takeFault_flags s _
  · exact takeFault_flags s r

/-- CMP commits the same state from `s` and from `s` with other flags, since it overwrites all three. -/
theorem exec_cmp_setFlags (a b : RegNum) (f : Flags) (hp : s.pc.toNat ≤ 0xFC) :
    exec (.cmp (regByte a) (regByte b)) (s.setFlags f) = exec (.cmp (regByte a) (regByte b)) s := by
  have hc : Commit (.cmp (regByte a) (regByte b)) s
      ((s.alu .compare a b).setPc (BitVec.ofNat 8 (s.pc.toNat + 3))) := ⟨a, b, rfl, rfl, by omega, rfl⟩
  have hcf : Commit (.cmp (regByte a) (regByte b)) (s.setFlags f)
      ((s.alu .compare a b).setPc (BitVec.ofNat 8 (s.pc.toNat + 3))) :=
    ⟨a, b, rfl, rfl, by rw [setFlags_pc]; omega, rfl⟩
  rw [exec_of_commit hc, exec_of_commit hcf]

/-! ### Read only by JEQ and JNE, and only E -/

/-- The check `c` reads no flag, so it answers alike with and without the change of flags: a handler that runs `c` first
carries the change through if what follows `c` does. -/
theorem transact_setFlags_bind {α : Type} {c : Except Raise α} {k k' : α → Except Raise State}
    (h : ∀ a, transact (s.setFlags f) (k' a) = mapNext (·.setFlags f) (transact s (k a))) :
    transact (s.setFlags f) (c >>= k') = mapNext (·.setFlags f) (transact s (c >>= k)) := by
  cases c with
  | ok a => exact h a
  | error r => rfl

theorem transact_aluHandler_setFlags {op : AluOp} (hop : op ≠ .compare) (b c : Byte) (s : State) (f : Flags) :
    transact (s.setFlags f) (aluHandler op b c (s.setFlags f)) =
      mapNext (·.setFlags f) (transact s (aluHandler op b c s)) := by
  refine transact_setFlags_bind fun _ => transact_setFlags_bind fun _ => transact_setFlags_bind fun _ =>
    transact_setFlags_bind fun _ => transact_setFlags_bind fun _ => ?_
  cases op with
  | add => rfl
  | mult => rfl
  | compare => exact absurd rfl hop

theorem transact_jumpIf_setFlags (taken : Bool) (b : Byte) (s : State) (f : Flags) :
    transact (s.setFlags f) (jumpIf taken b (s.setFlags f)) =
      mapNext (·.setFlags f) (transact s (jumpIf taken b s)) := by
  refine transact_setFlags_bind fun _ => transact_setFlags_bind fun _ => ?_
  cases taken with
  | true => rfl
  | false => exact transact_setFlags_bind fun _ => rfl

/-- Every instruction but CMP carries a change of flags through unread, provided that a JEQ or a JNE sees the same E. -/
theorem exec_setFlags (hcmp : i.mnemonic ≠ .CMP)
    (he : i.mnemonic = .JEQ ∨ i.mnemonic = .JNE → f.e = s.flags.e) :
    exec i (s.setFlags f) = mapNext (·.setFlags f) (exec i s) := by
  cases i with
  | hlt => rfl
  | ret => exact transact_setFlags_bind fun _ => rfl
  | push b | pop b | call b =>
    exact transact_setFlags_bind fun _ => transact_setFlags_bind fun _ => transact_setFlags_bind fun _ =>
      transact_setFlags_bind fun _ => rfl
  | prn b =>
    exact transact_setFlags_bind fun _ => transact_setFlags_bind fun _ => transact_setFlags_bind fun _ => rfl
  | jmp b => exact transact_setFlags_bind fun _ => transact_setFlags_bind fun _ => rfl
  | jeq b =>
    rw [exec, exec, execJeq, execJeq, setFlags_flags, he (.inl rfl)]
    exact transact_jumpIf_setFlags _ b s f
  | jne b =>
    rw [exec, exec, execJne, execJne, setFlags_flags, he (.inr rfl)]
    exact transact_jumpIf_setFlags _ b s f
  | ldi b v =>
    exact transact_setFlags_bind fun _ => transact_setFlags_bind fun _ => transact_setFlags_bind fun _ =>
      transact_setFlags_bind fun _ => rfl
  | add b c => exact transact_aluHandler_setFlags (by decide) b c s f
  | mult b c => exact transact_aluHandler_setFlags (by decide) b c s f
  | cmp b c => exact absurd rfl hcmp

/-- Settles O22: the writes by inversion of `exec` and of `step`; the reads by carrying a change of flags through
every check. -/
theorem flagsOnlyByCmp : Obligations.FlagsOnlyByCmp :=
  ⟨fun _ _ _ => exec_flags, fun _ _ => step_flags, fun a b _ f => exec_cmp_setFlags a b f,
    fun _ _ _ hcmp hjeq hjne => exec_setFlags hcmp fun h => (h.elim hjeq hjne).elim,
    fun _ _ _ _ hcmp => exec_setFlags hcmp fun _ => rfl⟩

end Sys2Proof.Machine
end

section
/-! ## The opcode decoder: 13 opcode bytes, and 243 bytes that are `Invalid` (R56) -/

namespace Sys2Proof

theorem decodeOpcode_eq_some {o : Byte} {m : Mnemonic} : decodeOpcode o = some m ↔ o = opcode m :=
  ⟨opcode_of_decodeOpcode, fun h => h ▸ decodeOpcode_opcode m⟩

theorem decodeOpcode_isSome {o : Byte} : (decodeOpcode o).isSome = true ↔ ∃ m, o = opcode m := by
  simp only [Option.isSome_iff_exists, decodeOpcode_eq_some]

theorem Mnemonic.mem_all (m : Mnemonic) : m ∈ Mnemonic.all :=
  List.mem_of_find?_eq_some (decodeOpcode_opcode m)

/-- The opcode map, with its bytes read as numbers (R55). -/
def opcodeNat (m : Mnemonic) : Nat := (opcode m).toNat

theorem opcodeNat_injective : Function.Injective opcodeNat :=
  fun _ _ h => opcode_injective (BitVec.eq_of_toNat_eq h)

/-- A number names a byte that decodes exactly when it is in the opcode column of R55's table. -/
theorem mem_decodable_iff {n : Nat} :
    n ∈ (List.range 256).filter (fun n => (decodeOpcode (BitVec.ofNat 8 n)).isSome) ↔
      n ∈ Mnemonic.all.map opcodeNat := by
  simp only [List.mem_filter, List.mem_range, decodeOpcode_isSome, List.mem_map, Mnemonic.mem_all, true_and]
  constructor
  · rintro ⟨hn, m, hm⟩
    exact ⟨m, by rw [opcodeNat, ← hm, BitVec.toNat_ofNat, Nat.mod_eq_of_lt hn]⟩
  · rintro ⟨m, rfl⟩
    exact ⟨(opcode m).isLt, m, by rw [opcodeNat, BitVec.ofNat_toNat, BitVec.setWidth_eq]⟩

/-- As many bytes decode as there are mnemonics, since no two mnemonics share an opcode. -/
theorem countP_decodable : (List.range 256).countP (fun n => (decodeOpcode (BitVec.ofNat 8 n)).isSome) = 13 := by
  have hopcodes : (Mnemonic.all.map opcodeNat).Nodup := .map opcodeNat_injective (by decide)
  have hperm := (List.perm_ext_iff_of_nodup (List.nodup_range.filter _) hopcodes).mpr fun _ => mem_decodable_iff
  rw [List.countP_eq_length_filter, hperm.length_eq, List.length_map]
  rfl

theorem countP_invalid : (List.range 256).countP (fun n => (decodeOpcode (BitVec.ofNat 8 n)).isNone) = 243 := by
  have hsplit := List.length_eq_countP_add_countP (fun n => (decodeOpcode (BitVec.ofNat 8 n)).isSome)
    (l := List.range 256)
  simp only [Bool.not_eq_true, Option.isSome_eq_false_iff, Bool.decide_eq_true, List.length_range,
    countP_decodable] at hsplit
  omega

/-- Settles O3: the two readings of the opcode table agree, and the 13 different opcodes leave 243 of the 256 bytes. -/
theorem opcodeDecoderTotal : Obligations.OpcodeDecoderTotal :=
  ⟨fun _ _ => decodeOpcode_eq_some, by rw [← List.countP_eq_length_filter, countP_invalid]⟩

end Sys2Proof
end

section
/-! ## A byte that is no opcode (R73) -/

namespace Sys2Proof.Machine

variable {s : State}

/-- The record of an invalid-instruction fault (R18, R121). -/
theorem takeFault_invalidInstruction (s : State) :
    s.takeFault invalidInstruction = { s with
      run := .faulted
      faultRecord := some { cause := .invalidInstruction, opcode := s.memRead s.pc, addr := s.pc, info := none } } :=
  rfl

/-- A byte that is no opcode is raised as such whatever stands after it, the top of memory included. -/
theorem fetchInstr_of_invalidOpcode (h : decodeOpcode (s.memRead s.pc) = none) :
    fetchInstr s = .error invalidInstruction := by
  rw [fetchInstr, decode_cons_of_none h]
  rfl

theorem step_of_invalidOpcode (hrun : s.run = .running) (h : decodeOpcode (s.memRead s.pc) = none) :
    step s = .next (s.takeFault invalidInstruction) := by
  rw [step_of_running hrun, fetchInstr_of_invalidOpcode h]

/-- Settles O8: the decoder answers `Invalid` for a byte that differs from every opcode, and the step then takes the
fault. -/
theorem invalidOpcodeFaults : Obligations.InvalidOpcodeFaults := by
  intro s hrun hno
  rw [← takeFault_invalidInstruction s]
  exact step_of_invalidOpcode hrun (decodeOpcode_eq_none.mpr hno)

end Sys2Proof.Machine
end

section
/-! ## The ALU: ADD and MULT commute (R97), CMP sets exactly one flag (R96) -/

namespace Sys2Proof.Machine

variable {s : State}

/-! ### Completion -/

theorem exec_add (a b : RegNum) (hp : s.pc.toNat ≤ 0xFC) : exec (.add (regByte a) (regByte b)) s =
    .next ((s.alu .add a b).setPc (BitVec.ofNat 8 (s.pc.toNat + 3))) :=
  exec_of_commit ⟨a, b, rfl, rfl, by omega, rfl⟩

theorem exec_mult (a b : RegNum) (hp : s.pc.toNat ≤ 0xFC) : exec (.mult (regByte a) (regByte b)) s =
    .next ((s.alu .mult a b).setPc (BitVec.ofNat 8 (s.pc.toNat + 3))) :=
  exec_of_commit ⟨a, b, rfl, rfl, by omega, rfl⟩

theorem exec_cmp (a b : RegNum) (hp : s.pc.toNat ≤ 0xFC) : exec (.cmp (regByte a) (regByte b)) s =
    .next ((s.alu .compare a b).setPc (BitVec.ofNat 8 (s.pc.toNat + 3))) :=
  exec_of_commit ⟨a, b, rfl, rfl, by omega, rfl⟩

/-! ### The register ADD and MULT write -/

theorem toNat_reg_alu_add (s : State) (a b : RegNum) :
    ((s.alu .add a b).reg a).toNat = ((s.reg a).toNat + (s.reg b).toNat) % 256 := by
  rw [State.alu, reg_setReg_self, BitVec.toNat_ofNat]

theorem toNat_reg_alu_mult (s : State) (a b : RegNum) :
    ((s.alu .mult a b).reg a).toNat = ((s.reg a).toNat * (s.reg b).toNat) % 256 := by
  rw [State.alu, reg_setReg_self, BitVec.toNat_ofNat]

theorem reg_alu_add_comm (s : State) (a b : RegNum) : (s.alu .add a b).reg a = (s.alu .add b a).reg b :=
  BitVec.eq_of_toNat_eq (by rw [toNat_reg_alu_add, toNat_reg_alu_add, Nat.add_comm])

theorem reg_alu_mult_comm (s : State) (a b : RegNum) : (s.alu .mult a b).reg a = (s.alu .mult b a).reg b :=
  BitVec.eq_of_toNat_eq (by rw [toNat_reg_alu_mult, toNat_reg_alu_mult, Nat.mul_comm])

/-- Settles O21: the register written holds a sum or a product of two numbers modulo 256, and those commute. -/
theorem addMultCommute : Obligations.AddMultCommute := by
  intro a b s hp
  constructor
  · exact ⟨_, _, exec_add a b hp, exec_add b a hp, reg_alu_add_comm s a b, toNat_reg_alu_add s a b⟩
  · exact ⟨_, _, exec_mult a b hp, exec_mult b a hp, reg_alu_mult_comm s a b, toNat_reg_alu_mult s a b⟩

/-! ### The flags CMP writes -/

@[simp] theorem alu_compare_flags (s : State) (a b : RegNum) :
    (s.alu .compare a b).flags = compareFlags (s.reg a) (s.reg b) := rfl

theorem compareFlags_self (x : Byte) : compareFlags x x = { e := true, l := false, g := false } := by
  simp [compareFlags]

theorem compareFlags_of_lt {x y : Byte} (h : x.toNat < y.toNat) :
    compareFlags x y = { e := false, l := true, g := false } := by
  have hne : x ≠ y := fun e => Nat.lt_irrefl _ (e ▸ h)
  simp [compareFlags, hne, h, Nat.le_of_lt h]

theorem compareFlags_of_gt {x y : Byte} (h : y.toNat < x.toNat) :
    compareFlags x y = { e := false, l := false, g := true } := by
  have hne : x ≠ y := fun e => Nat.lt_irrefl _ (e ▸ h)
  simp [compareFlags, hne, h, Nat.le_of_lt h]

/-- E alone is set exactly when the two values are equal. -/
theorem compareFlags_eq_equal_iff {x y : Byte} :
    compareFlags x y = { e := true, l := false, g := false } ↔ x = y := by
  constructor
  · intro h
    exact (compareFlags_e x y).mp (congrArg Flags.e h)
  · rintro rfl
    exact compareFlags_self x

theorem compareFlags_exactly_one (x y : Byte) :
    compareFlags x y = { e := true, l := false, g := false } ∨
      compareFlags x y = { e := false, l := true, g := false } ∨
      compareFlags x y = { e := false, l := false, g := true } := by
  obtain hlt | heq | hgt := Nat.lt_trichotomy x.toNat y.toNat
  · exact .inr (.inl (compareFlags_of_lt hlt))
  · exact .inl (compareFlags_eq_equal_iff.mpr (BitVec.eq_of_toNat_eq heq))
  · exact .inr (.inr (compareFlags_of_gt hgt))

/-- Settles O20: CMP's flags are `compareFlags` of the two values, and the order of unsigned values is total. -/
theorem cmpSetsExactlyOneFlag : Obligations.CmpSetsExactlyOneFlag := by
  intro a b s hp
  refine ⟨_, exec_cmp a b hp, ?_⟩
  rw [setPc_flags, alu_compare_flags]
  exact ⟨compareFlags_exactly_one (s.reg a) (s.reg b), compareFlags_eq_equal_iff.symm⟩

end Sys2Proof.Machine
end

section
/-! ## The stack: POP takes back what PUSH stored (R103) -/

namespace Sys2Proof.Machine

variable {s : State} {r : RegNum}

/-! ### Writing back what a register holds -/

/-- Writing to a register the byte it already holds changes nothing. -/
theorem setReg_reg_self (s : State) (r : RegNum) : s.setReg r (s.reg r) = s := by
  rw [State.setReg, State.reg, Vector.get_eq_getElem, Vector.set_getElem_self]

theorem setSp_sp_self (s : State) : s.setSp s.sp = s := setReg_reg_self s Config.spIndex

/-- A push moves SP and stores a byte; a later move of SP leaves only the store. -/
theorem push_setSp (s : State) (d v w : Byte) : (s.push d v).setSp w = (s.setSp w).memWrite d v := by
  simp only [State.setSp, State.setReg, State.push, State.memWrite, Vector.set_set]

/-- SP moved back to where it stood, the byte stored is all that is left of a push. -/
theorem push_setSp_sp (s : State) (d v : Byte) : (s.push d v).setSp s.sp = s.memWrite d v := by
  rw [push_setSp, setSp_sp_self]

/-! ### PUSH and POP -/

/-- The cell below SP, where a push stores (R100). -/
def State.belowSp (s : State) : Byte := BitVec.ofNat 8 (s.sp.toNat - 1)

/-- The byte PUSH stores: the register, read after the decrement (R100, D22). -/
def State.pushedByte (s : State) (r : RegNum) : Byte := (s.setSp s.belowSp).reg r

/-- The state PUSH commits (R100). -/
def State.afterPush (s : State) (r : RegNum) : State :=
  (s.push s.belowSp (s.pushedByte r)).setPc (BitVec.ofNat 8 (s.pc.toNat + 2))

theorem toNat_belowSp (hsp : 0 < s.sp.toNat) : s.belowSp.toNat + 1 = s.sp.toNat := by
  have := s.sp.isLt
  rw [State.belowSp, toNat_ofNat_of_le (by omega)]
  omega

theorem pushedByte_eq (s : State) (r : RegNum) : s.pushedByte r = if r = 7 then s.belowSp else s.reg r :=
  reg_setSp s r s.belowSp

theorem exec_push (hp : s.pc.toNat ≤ 0xFD) (hsp : 0 < s.sp.toNat) :
    exec (.push (regByte r)) s = .next (s.afterPush r) :=
  exec_of_commit ⟨r, rfl, by omega, hsp, rfl⟩

/-- A POP that loads the byte its register already holds only moves SP and `pc`. -/
theorem exec_pop_of_memRead_eq_reg (hp : s.pc.toNat ≤ 0xFD) (hsp : s.sp.toNat < 255)
    (hload : s.memRead s.sp = s.reg r) : exec (.pop (regByte r)) s =
      .next ((s.setSp (BitVec.ofNat 8 (s.sp.toNat + 1))).setPc (BitVec.ofNat 8 (s.pc.toNat + 2))) := by
  have hsame : s.setReg r (s.memRead s.sp) = s := by rw [hload, setReg_reg_self]
  exact exec_of_commit ⟨r, rfl, by omega, by rw [hsame]; omega, by rw [hsame]⟩

/-! ### The round trip -/

@[simp] theorem afterPush_sp (s : State) (r : RegNum) : (s.afterPush r).sp = s.belowSp :=
  sp_push s s.belowSp (s.pushedByte r)

theorem toNat_afterPush_pc (hp : s.pc.toNat ≤ 0xFD) : (s.afterPush r).pc.toNat = s.pc.toNat + 2 :=
  toNat_ofNat_of_le (by omega)

/-- After a PUSH the byte at SP is the one the register holds. For R7 too: PUSH R7 stores the new SP. -/
theorem afterPush_memRead_sp (s : State) (r : RegNum) :
    (s.afterPush r).memRead (s.afterPush r).sp = (s.afterPush r).reg r := by
  rw [afterPush_sp, State.afterPush, setPc_memRead, memRead_push, if_pos rfl, setPc_reg, reg_push, pushedByte_eq]

/-- PUSH then POP leaves the pushed byte below SP, and nothing else. -/
theorem exec_pop_afterPush (hp : s.pc.toNat ≤ 0xFB) (hsp : 0 < s.sp.toNat) :
    exec (.pop (regByte r)) (s.afterPush r) =
      .next ((s.memWrite s.belowSp (s.pushedByte r)).setPc (BitVec.ofNat 8 (s.pc.toNat + 4))) := by
  have hpc : (s.afterPush r).pc.toNat = s.pc.toNat + 2 := toNat_afterPush_pc (by omega)
  have hbelow : s.belowSp.toNat + 1 = s.sp.toNat := toNat_belowSp hsp
  have hback : (s.afterPush r).setSp s.sp =
      (s.memWrite s.belowSp (s.pushedByte r)).setPc (BitVec.ofNat 8 (s.pc.toNat + 2)) :=
    congrArg (State.setPc · (BitVec.ofNat 8 (s.pc.toNat + 2))) (push_setSp_sp s s.belowSp (s.pushedByte r))
  have := s.sp.isLt
  rw [exec_pop_of_memRead_eq_reg (by omega) (by rw [afterPush_sp]; omega) (afterPush_memRead_sp s r), afterPush_sp,
    hbelow, hpc, BitVec.ofNat_toNat, BitVec.setWidth_eq, hback]
  rfl

/-- Settles O25: POP reloads the byte the register holds and moves SP back, so all that is left of the PUSH is the
byte it stored. -/
theorem pushPopRoundTrip : Obligations.PushPopRoundTrip := by
  intro r s hp hsp
  have hbelow : s.belowSp.toNat + 1 = s.sp.toNat := toNat_belowSp hsp
  have hpc : (BitVec.ofNat 8 (s.pc.toNat + 4)).toNat = s.pc.toNat + 4 := toNat_ofNat_of_le (by omega)
  refine ⟨_, _, exec_push (by omega) hsp, exec_pop_afterPush hp hsp, ?_⟩
  rw [afterPush_sp]
  refine ⟨hbelow, hbelow.symm, rfl, fun _ _ => rfl, ?_, memWrite_sameMemoryExcept s _ _, hpc, rfl, ⟨rfl, rfl⟩, rfl⟩
  rw [setPc_memRead, memRead_memWrite_same, pushedByte_eq]

end Sys2Proof.Machine
end

section
/-! ## The conditional jumps: JEQ and JNE take opposite sides (R108, R109, R112) -/

namespace Sys2Proof.Machine

variable {s : State}

/-- The fall-through address (R108, R109) does not wrap. -/
theorem toNat_fallThrough (hp : s.pc.toNat ≤ 0xFD) : (BitVec.ofNat 8 (s.pc.toNat + 2)).toNat = s.pc.toNat + 2 :=
  toNat_ofNat_of_le (by omega)

theorem exec_jeq_taken (r : RegNum) (he : s.flags.e = true) (hp : s.pc.toNat ≤ 0xFE) :
    exec (.jeq (regByte r)) s = .next (s.setPc (s.reg r)) :=
  exec_of_commit ⟨r, rfl, .inl ⟨he, by omega, rfl⟩⟩

theorem exec_jeq_not_taken (r : RegNum) (he : s.flags.e = false) (hp : s.pc.toNat ≤ 0xFD) :
    exec (.jeq (regByte r)) s = .next (s.setPc (BitVec.ofNat 8 (s.pc.toNat + 2))) :=
  exec_of_commit ⟨r, rfl, .inr ⟨he, by omega, rfl⟩⟩

theorem exec_jne_taken (r : RegNum) (he : s.flags.e = false) (hp : s.pc.toNat ≤ 0xFE) :
    exec (.jne (regByte r)) s = .next (s.setPc (s.reg r)) :=
  exec_of_commit ⟨r, rfl, .inl ⟨he, by omega, rfl⟩⟩

theorem exec_jne_not_taken (r : RegNum) (he : s.flags.e = true) (hp : s.pc.toNat ≤ 0xFD) :
    exec (.jne (regByte r)) s = .next (s.setPc (BitVec.ofNat 8 (s.pc.toNat + 2))) :=
  exec_of_commit ⟨r, rfl, .inr ⟨he, by omega, rfl⟩⟩

/-- Settles O31: E set takes JEQ and not JNE, E clear takes JNE and not JEQ. -/
theorem exactlyOneOfJeqJneJumps : Obligations.ExactlyOneOfJeqJneJumps := by
  intro r s hp
  cases he : s.flags.e with
  | true =>
    exact ⟨_, _, exec_jeq_taken r he (by omega), exec_jne_not_taken r he hp, .inl ⟨rfl, rfl, toNat_fallThrough hp⟩⟩
  | false =>
    exact ⟨_, _, exec_jeq_not_taken r he hp, exec_jne_taken r he (by omega), .inr ⟨rfl, toNat_fallThrough hp, rfl⟩⟩

end Sys2Proof.Machine
end

section
/-! ## Decoding and encoding are inverse to each other (R50, R51, R55) -/

namespace Sys2Proof

/-! ### From bytes to an instruction -/

/-- A list that decodes begins with an opcode byte, and the bytes after it are the operands. -/
theorem eq_encode_append_of_decode {bs rest : List Byte} {i : Instr} (h : decode bs = .ok (i, rest)) :
    bs = encode i ++ rest := by
  cases bs with
  | nil => cases h
  | cons o bs =>
    cases hd : decodeOpcode o with
    | none => rw [decode_cons_of_none hd] at h; cases h
    | some m =>
      rw [decode_cons_of_some hd] at h
      obtain ⟨rfl, rfl⟩ := takeOperands_ok h
      rw [opcode_of_decodeOpcode hd]
      rfl

/-! ### From an instruction to bytes -/

theorem takeOperands_operandBytes (i : Instr) (rest : List Byte) :
    takeOperands i.mnemonic (i.operandBytes ++ rest) = .ok (i, rest) := by
  cases i <;> rfl

theorem decode_encode_append (i : Instr) (rest : List Byte) : decode (encode i ++ rest) = .ok (i, rest) := by
  rw [encode, List.cons_append, decode_cons_of_some (decodeOpcode_opcode i.mnemonic), takeOperands_operandBytes]

theorem decode_encode (i : Instr) : decode (encode i) = .ok (i, []) := by
  simpa using decode_encode_append i []

/-- Settles O4: a decoded list is the opcode byte of a mnemonic and that mnemonic's operands, and those bytes are
assembled back into the same instruction. -/
theorem decodeIffEncode : Obligations.DecodeIffEncode := by
  intro bs rest i
  constructor
  · exact eq_encode_append_of_decode
  · rintro rfl
    exact decode_encode_append i rest

/-- Settles O2: each word of the table is an instruction's encoding and the bytes after it, and 0x00 is none of the 13
opcodes. -/
theorem specWordsDecode : Obligations.SpecWordsDecode :=
  ⟨decode_encode .hlt, decode_encode .ret, decode_encode (.push 3), decode_encode_append (.jmp 6) [0xFF#8],
    decode_encode (.ldi 7 0xF0), decode_encode (.add 1 2), decode_encode (.cmp 4 5), decode_cons_of_none rfl⟩

end Sys2Proof
end

section
/-! ## The fetch reads the bytes that stand at `pc` (R50, R54, R70) -/

namespace Sys2Proof.Machine

variable {s : State} {i : Instr}

/-! ### The bytes a fetch reads -/

/-- The at most three bytes a fetch hands to the decoder. -/
def State.fetchBytes (s : State) : List Byte := s.memRead s.pc :: s.bytesAfterPc

/-- There are three, or as many as memory has from `pc` on. -/
theorem fetchBytes_length (s : State) : s.fetchBytes.length = min 3 (256 - s.pc.toNat) := by
  have := s.pc.isLt
  rw [State.fetchBytes, List.length_cons, bytesAfterPc_length]
  omega

theorem ofNat_pc (s : State) : BitVec.ofNat 8 s.pc.toNat = s.pc := by
  rw [BitVec.ofNat_toNat, BitVec.setWidth_eq]

/-- They are memory's, in the order of their addresses. -/
theorem fetchBytes_getElem {k : Nat} (hk : k < s.fetchBytes.length) :
    s.fetchBytes[k] = s.memRead (BitVec.ofNat 8 (s.pc.toNat + k)) := by
  have hlen := fetchBytes_length s
  match k with
  | 0 => rw [Nat.add_zero, ofNat_pc]; rfl
  | 1 =>
    by_cases hp : s.pc.toNat ≤ 253
    · simp [State.fetchBytes, bytesAfterPc_of_le hp]
    · simp [State.fetchBytes, bytesAfterPc_at_254 (s := s) (by omega)]
  | 2 => simp [State.fetchBytes, bytesAfterPc_of_le (s := s) (by omega)]
  | k + 3 => omega

/-- Every instruction is at most three bytes long. -/
theorem encode_length_le (i : Instr) : (encode i).length ≤ 3 := by
  cases i <;> simp [encode, Instr.operandBytes]

/-- Where an instruction stands at `pc`, the fetched bytes begin with its encoding. -/
theorem encode_prefix_fetchBytes (hfit : s.pc.toNat + (encode i).length ≤ 256)
    (hbytes : ∀ (k : Nat) (h : k < (encode i).length), s.memRead (BitVec.ofNat 8 (s.pc.toNat + k)) = (encode i)[k]) :
    encode i <+: s.fetchBytes := by
  have hlen : (encode i).length ≤ s.fetchBytes.length := by
    have := encode_length_le i
    rw [fetchBytes_length]
    omega
  have htake : s.fetchBytes.take (encode i).length = encode i := by
    refine List.ext_getElem (List.length_take_of_le hlen) fun k _ hk => ?_
    rw [List.getElem_take, fetchBytes_getElem, hbytes k hk]
  exact htake ▸ List.take_prefix (encode i).length s.fetchBytes

/-! ### The step that runs what was fetched -/

theorem fetchInstr_of_decode {rest : List Byte} (h : decode s.fetchBytes = .ok (i, rest)) : fetchInstr s = .ok i := by
  rw [State.fetchBytes] at h
  rw [fetchInstr, h]

theorem fetchInstr_of_prefix (h : encode i <+: s.fetchBytes) : fetchInstr s = .ok i := by
  obtain ⟨rest, hrest⟩ := h
  exact fetchInstr_of_decode (hrest ▸ decode_encode_append i rest)

theorem step_of_fetchInstr (hrun : s.run = .running) (h : fetchInstr s = .ok i) : step s = exec i s := by
  rw [step_of_running hrun, h]

theorem step_of_fetchInstr_error {r : Raise} (hrun : s.run = .running) (h : fetchInstr s = .error r) :
    step s = .next (s.takeFault r) := by
  rw [step_of_running hrun, h]

/-- Settles O5: the fetch answers what the decoder does, and a running core executes it. -/
theorem stepRunsDecoded : Obligations.StepRunsDecoded :=
  fun _ _ _ hrun h => step_of_fetchInstr hrun (fetchInstr_of_decode h)

/-- Settles O6: the fetched bytes begin with the encoding, so the fetch decodes to the instruction. -/
theorem stepRunsBytesAtPc : Obligations.StepRunsBytesAtPc :=
  fun _ _ hrun hfit hbytes => step_of_fetchInstr hrun (fetchInstr_of_prefix (encode_prefix_fetchBytes hfit hbytes))

/-- An opcode byte and one operand byte at `pc` are run as the instruction they encode. -/
theorem step_of_opcode_operand {m : Mnemonic} {b : Byte} (hi : encode i = [opcode m, b]) (hrun : s.run = .running)
    (hp : s.pc.toNat ≤ 0xFE) (hop : s.memRead s.pc = opcode m) (hb : s.memRead (s.pc + 1) = b) :
    step s = exec i s := by
  refine stepRunsBytesAtPc s i hrun (by rw [hi]; simpa using Nat.add_le_add_right hp 2) fun k hk => ?_
  have hpc : BitVec.ofNat 8 (s.pc.toNat + 1) = s.pc + 1 := by rw [BitVec.ofNat_add, ofNat_pc]; rfl
  simp only [hi] at hk ⊢
  match k with
  | 0 => rw [Nat.add_zero, ofNat_pc, hop]; rfl
  | 1 => rw [hpc, hb]; rfl
  | k + 2 => simp at hk

/-! ### Bytes placed in memory -/

/-- `storeBytes` writes the cell numbered `a`, or none where there is no such cell. -/
theorem memRead_memWrite_ofNat (a : Nat) (s : State) (v d : Byte) :
    (if a ≤ Config.topAddr then s.memWrite (BitVec.ofNat 8 a) v else s).memRead d =
      if d.toNat = a then v else s.memRead d := by
  split
  · next ha =>
    rw [memRead_memWrite]
    refine if_congr ?_ rfl rfl
    rw [BitVec.toNat_eq, toNat_ofNat_of_le ha]
  · next ha =>
    have hd : d.toNat ≤ Config.topAddr := Nat.le_of_lt_succ d.isLt
    rw [if_neg (by omega)]

/-- After bytes are stored from `a` on, each cell from there holds its byte; the cells below and beyond are as
before. -/
theorem memRead_storeBytes (bs : List Byte) (a : Nat) (s : State) (d : Byte) :
    (State.storeBytes bs a s).memRead d =
      if d.toNat < a then s.memRead d else bs[d.toNat - a]?.getD (s.memRead d) := by
  induction bs generalizing a s with
  | nil => simp [State.storeBytes]
  | cons b bs ih =>
    rw [State.storeBytes, ih, memRead_memWrite_ofNat]
    obtain hlt | heq | hgt := Nat.lt_trichotomy d.toNat a
    · rw [if_pos (by omega), if_neg (by omega), if_pos hlt]
    · simp [heq]
    · have hsub : d.toNat - a = d.toNat - (a + 1) + 1 := by omega
      rw [if_neg (by omega), if_neg (by omega), if_neg (by omega), hsub, List.getElem?_cons_succ]

/-- Only memory changes. -/
theorem storeBytes_frame (bs : List Byte) (a : Nat) (s : State) :
    State.storeBytes bs a s = { s with mem := (State.storeBytes bs a s).mem } := by
  induction bs generalizing a s with
  | nil => rfl
  | cons b bs ih =>
    rw [State.storeBytes, ih]
    split <;> rfl

theorem memRead_storeBytes_getElem {bs : List Byte} {a k : Nat} (hk : k < bs.length) (hfit : a + k ≤ 255)
    (s : State) : (State.storeBytes bs a s).memRead (BitVec.ofNat 8 (a + k)) = bs[k] := by
  rw [memRead_storeBytes, toNat_ofNat_of_le hfit, if_neg (by omega), Nat.add_sub_cancel_left,
    List.getElem?_eq_getElem hk]
  rfl

theorem memRead_storeBytes_of_ge {bs : List Byte} {a : Nat} {d : Byte} (h : a + bs.length ≤ d.toNat) (s : State) :
    (State.storeBytes bs a s).memRead d = s.memRead d := by
  rw [memRead_storeBytes, if_neg (by omega), List.getElem?_eq_none (by omega)]
  rfl

/-! ### An instruction placed by its table word -/

theorem withFetchWord_pc (s : State) (nbits w : Nat) : (s.withFetchWord nbits w).pc = s.pc := by
  rw [State.withFetchWord, setRun_pc, storeBytes_frame]

/-- With three cells from `pc` on, the next fetch reads the word's three bytes. -/
theorem fetchBytes_withFetchWord (nbits w : Nat) (hp : s.pc.toNat ≤ 253) :
    (s.withFetchWord nbits w).fetchBytes = tableBytes nbits w := by
  have hlen : (tableBytes nbits w).length = 3 := rfl
  refine List.ext_getElem ?_ fun k _ hk => ?_
  · rw [fetchBytes_length, withFetchWord_pc, hlen]
    omega
  · rw [fetchBytes_getElem, withFetchWord_pc, State.withFetchWord, setRun_memRead,
      memRead_storeBytes_getElem hk (by omega)]

theorem decode_of_decodeTableWord {nbits w : Nat} (h : decodeTableWord nbits w = some i) :
    ∃ rest, decode (tableBytes nbits w) = .ok (i, rest) := by
  unfold decodeTableWord at h
  split at h
  · next j rest hd => cases h; exact ⟨rest, hd⟩
  · cases h

/-- Settles O7: the next fetch reads the bytes that the word decodes from. -/
theorem fetchWordRuns : Obligations.FetchWordRuns := by
  intro s nbits w i hw hp
  obtain ⟨rest, hd⟩ := decode_of_decodeTableWord hw
  exact step_of_fetchInstr rfl (fetchInstr_of_decode ((fetchBytes_withFetchWord nbits w hp).symm ▸ hd))

end Sys2Proof.Machine
end

section
/-! ## The run state: when a step stops the core, and what a stopped core does (R17, R70, R75, R76) -/

namespace Sys2Proof.Machine

variable {s t : State} {i : Instr} {r : RegNum}

/-! ### A step always answers -/

theorem exec_answers_next (i : Instr) (s : State) : ∃ t, exec i s = .next t := by
  obtain ⟨t, -, h⟩ | ⟨r, -, h⟩ := exec_cases i s
  · exact ⟨t, h⟩
  · exact ⟨s.takeFault r, h⟩

/-- Settles O11: a stopped core answers itself, and a running one what its instruction or its fault leaves. -/
theorem everyStepAnswersNext : Obligations.EveryStepAnswersNext := by
  intro s
  by_cases hrun : s.run = .running
  · cases hf : fetchInstr s with
    | ok i => exact step_of_fetchInstr hrun hf ▸ exec_answers_next i s
    | error r => exact ⟨_, step_of_fetchInstr_error hrun hf⟩
  · exact ⟨s, step_of_not_running hrun⟩

/-! ### Stopped cores -/

/-- Settles O9: the loop takes a step in RUNNING only. -/
theorem stoppedCoreDoesNothing : Obligations.StoppedCoreDoesNothing :=
  fun _ => step_of_not_running

theorem not_running_of_terminal (h : s.run = .halted ∨ s.run = .faulted) : s.run ≠ .running := by
  obtain h | h := h <;> simp [h]

/-- A state that steps to itself stays as it is for any number of steps. -/
theorem runSteps_of_step_self (h : step s = .next s) (k : Nat) : runSteps k s = .next s := by
  induction k with
  | zero => rfl
  | succ k ih => rw [runSteps, h]; exact ih

/-- Settles O10: a terminal core is not running, so it steps to itself. -/
theorem terminalStatesStay : Obligations.TerminalStatesStay :=
  fun _ k h => runSteps_of_step_self (step_of_not_running (not_running_of_terminal h)) k

/-! ### A JMP to its own address -/

theorem exec_jmp (r : RegNum) (hp : s.pc.toNat ≤ 0xFE) : exec (.jmp (regByte r)) s = .next (s.setPc (s.reg r)) :=
  exec_of_commit ⟨r, rfl, by omega, rfl⟩

/-- Settles O13: the JMP at `pc` sets `pc` to what it is, so the running core steps to itself. -/
theorem jumpToItselfNeverStops : Obligations.JumpToItselfNeverStops := by
  intro s r k hrun hp hop hb htarget
  refine runSteps_of_step_self ?_ k
  rw [step_of_opcode_operand (i := .jmp (regByte r)) rfl hrun hp hop hb, exec_jmp r hp, htarget]
  rfl

/-! ### How a running core stops -/

theorem mnemonic_eq_hlt_iff : i.mnemonic = .HLT ↔ i = .hlt := by
  cases i <;> simp [Instr.mnemonic]

/-- A running core's commit halts exactly for HLT, and never faults. -/
theorem commit_run_of_running (hrun : s.run = .running) (h : Commit i s t) :
    t.run ≠ .idle ∧ t.run ≠ .faulted ∧ (t.run = .halted ↔ i = .hlt) := by
  rw [(commit_run h).2, hrun]
  by_cases hi : i = .hlt <;> simp [hi]

/-- Settles O12: of the ways a step ends, only the commit of HLT halts, and both kinds of fault are on another opcode
byte. -/
theorem runTransitions : Obligations.RunTransitions := by
  intro s t hrun h
  obtain ⟨hn, -⟩ | ⟨-, ⟨i, ho, -, hc⟩ | ⟨hd, rfl⟩ | ⟨r, hne, -, -, rfl⟩⟩ := step_next h
  · exact absurd hrun hn
  · obtain ⟨hidle, -, hhalt⟩ := commit_run_of_running hrun hc
    refine ⟨hidle, ?_⟩
    rw [hhalt, ← mnemonic_eq_hlt_iff, ho]
    exact ⟨congrArg opcode, opcode_injective⟩
  · have hne : s.memRead s.pc ≠ opcode .HLT := decodeOpcode_eq_none.mp hd .HLT
    simp [hne]
  · simp [hne]

/-! ### Faulting steps -/

/-- Settles O38: a step that ends FAULTED has not committed, so it has taken a fault, which writes `run` and the
record only. -/
theorem faultsArePrecise : Obligations.FaultsArePrecise := by
  intro s t hrun h hfault
  obtain ⟨hn, -⟩ | ⟨-, ⟨i, -, -, hc⟩ | ⟨-, rfl⟩ | ⟨r, -, -, -, rfl⟩⟩ := step_next h
  · exact absurd hrun hn
  · exact absurd hfault (commit_run_of_running hrun hc).2.1
  · exact ⟨_, rfl, rfl, rfl⟩
  · exact ⟨_, rfl, rfl, rfl⟩

theorem AddressFault.cause_eq {r : Raise} (h : AddressFault r) : r.cause = .addressOutOfRange := by
  obtain rfl | rfl | ⟨b, -, rfl⟩ := h <;> rfl

/-- Settles O39: a commit keeps the record, and the two kinds of fault record the two other causes. -/
theorem unsupportedAluUnreachable : Obligations.UnsupportedAluUnreachable := by
  intro s t f h hrec hcause
  obtain ⟨-, rfl⟩ | ⟨-, ⟨i, -, -, hc⟩ | ⟨-, rfl⟩ | ⟨r, -, -, ha, rfl⟩⟩ := step_next h
  · exact hrec
  · exact (commit_run hc).1 ▸ hrec
  · cases hrec; cases hcause
  · cases hrec
    rw [ha.cause_eq] at hcause
    cases hcause

/-- Settles O40: `causeCode` by each cause. -/
theorem causeCodes : Obligations.CauseCodes := by
  refine ⟨rfl, fun f => ⟨?_, ?_, ?_⟩⟩ <;> intro h <;> rw [causeCode, h]

end Sys2Proof.Machine
end

section
/-! ## The checks of an instruction, in their order of priority (R74, R125) -/

namespace Sys2Proof.Machine

variable {s : State} {i : Instr}

/-! ### A handler up to the check that fails -/

theorem transact_of_error {c : Except Raise State} {r : Raise} (h : c = .error r) :
    transact s c = .next (s.takeFault r) := by
  rw [h, transact_error]

/-- A check that passes is followed by the rest of the handler. -/
theorem bind_of_ok {α β : Type} {c : Except Raise α} {a : α} {f : α → Except Raise β} {x : Except Raise β}
    (h : c = .ok a) (hf : f a = x) : (c >>= f) = x := by
  rw [h]; exact hf

/-! ### Operand fetches (R6) -/

theorem operandAddr_pair_error_bind {β : Type} (h : 255 < s.pc.toNat + 2) (f : Byte → Byte → Except Raise β) :
    (s.operandAddr 1 >>= fun a => s.operandAddr 2 >>= f a) = .error (addressOutOfRange .mem 256) := by
  have := s.pc.isLt
  by_cases h1 : s.pc.toNat + 1 = 256
  · exact operandAddr_error_bind h1 _
  · exact bind_of_ok (operandAddr_of_le (by omega)) (operandAddr_error_bind (by omega) _)

/-- Settles O33: every handler fetches its operand bytes before it does anything else. -/
theorem operandPastTopFaults : Obligations.OperandPastTopFaults := by
  intro i s h
  have := s.pc.isLt
  cases i with simp only [Instr.mnemonic, Mnemonic.format, Format.operandCount] at h
  | hlt | ret => omega
  | push b | pop b | prn b | call b | jmp b | jeq b | jne b =>
    exact transact_of_error (operandAddr_error_bind (by omega) _)
  | ldi b v | add b c | mult b c | cmp b c => exact transact_of_error (operandAddr_pair_error_bind h _)

/-! ### Register numbers (R7) -/

theorem eq_regByte_regOf {b : Byte} (h : ¬ 7 < b.toNat) : b = regByte (regOf b) :=
  (regByte_regOf (Nat.le_of_not_lt h)).symm

theorem regIdx_regOf {b : Byte} (h : ¬ 7 < b.toNat) : regIdx b = .ok (regOf b) :=
  regIdx_ok.mpr (eq_regByte_regOf h)

theorem regIdx_single_error_bind {β : Type} {b d : Byte} (h : [b].find? (fun x => 7 < x.toNat) = some d)
    (f : RegNum → Except Raise β) : (regIdx b >>= f) = .error (addressOutOfRange .reg d.toNat) := by
  have hd : 7 < d.toNat := by simpa using List.find?_some h
  obtain rfl : d = b := List.mem_singleton.mp (List.mem_of_find?_eq_some h)
  exact regIdx_error_bind hd f

/-- Of two register bytes, the first that names no register is the one raised. -/
theorem regIdx_pair_error_bind {β : Type} {b c d : Byte} (h : [b, c].find? (fun x => 7 < x.toNat) = some d)
    (f : RegNum → RegNum → Except Raise β) :
    (regIdx b >>= fun r => regIdx c >>= f r) = .error (addressOutOfRange .reg d.toNat) := by
  by_cases hb : 7 < b.toNat
  · rw [List.find?_cons_of_pos (by simpa using hb)] at h
    cases h
    exact regIdx_error_bind hb _
  · rw [List.find?_cons_of_neg (by simpa using hb)] at h
    exact bind_of_ok (regIdx_regOf hb) (regIdx_single_error_bind h _)

/-- Settles O34: every handler reads its register numbers next, the first operand's first. -/
theorem registerByteAboveSevenFaults : Obligations.RegisterByteAboveSevenFaults := by
  intro i s d hop h
  change exec i s = .next (s.takeFault (addressOutOfRange .reg d.toNat))
  cases i with simp only [Instr.mnemonic, Mnemonic.format, Format.operandCount, Instr.regOperands] at hop h
  | hlt | ret => cases h
  | push b | pop b | prn b | call b | jmp b | jeq b | jne b =>
    exact transact_of_error (bind_of_ok (operandAddr_of_le hop) (regIdx_single_error_bind h _))
  | ldi b v =>
    exact transact_of_error (bind_of_ok (operandAddr_of_le (by omega)) (bind_of_ok (operandAddr_of_le hop)
      (regIdx_single_error_bind h _)))
  | add b c | mult b c | cmp b c =>
    exact transact_of_error (bind_of_ok (operandAddr_of_le (by omega)) (bind_of_ok (operandAddr_of_le hop)
      (regIdx_pair_error_bind h _)))

/-! ### The step of SP (R41), and the sequential address (R8) -/

/-- The operand bytes are in memory and the register bytes name registers: the checks before the step of SP pass. -/
def OperandsOk (s : State) (i : Instr) : Prop :=
  s.pc.toNat + i.mnemonic.format.operandCount ≤ 255 ∧ ∀ b ∈ i.regOperands, ¬ 7 < b.toNat

/-- The operand fetch and the register number of an instruction on one register pass. -/
theorem operand_register_bind {β : Type} {b : Byte} {f : RegNum → Except Raise β} {x : Except Raise β}
    (hop : s.pc.toNat + 1 ≤ 255) (hreg : ¬ 7 < b.toNat) (hf : f (regOf b) = x) :
    (s.operandAddr 1 >>= fun _ => regIdx b >>= f) = x :=
  bind_of_ok (operandAddr_of_le hop) (bind_of_ok (regIdx_regOf hreg) hf)

/-- A step of SP out of range is raised next, with the number it would be. -/
theorem exec_of_spStep_error {v : Int} (hok : OperandsOk s i) (hv : spStep s i = some v) (hr : v < 0 ∨ 255 < v) :
    exec i s = .next (s.takeFault (addressOutOfRange .mem v)) := by
  have := s.sp.isLt
  obtain ⟨hop, hreg⟩ := hok
  cases i with
    simp only [spStep, Instr.regOperands, List.mem_singleton, forall_eq, Instr.mnemonic, Mnemonic.format,
      Format.operandCount, Option.some.injEq, reduceCtorEq] at hv hreg hop
  | ret =>
    obtain rfl : v = 256 := by omega
    exact transact_of_error (spInc_error_bind (by omega) _)
  | push b | call b =>
    obtain rfl : v = -1 := by omega
    exact transact_of_error (operand_register_bind hop hreg (spDec_error_bind (by omega) _))
  | pop b =>
    rw [← sp_setReg] at hv
    have := (s.setReg (regOf b) (s.memRead s.sp)).sp.isLt
    obtain rfl : v = 256 := by omega
    exact transact_of_error (operand_register_bind hop hreg (spInc_error_bind (by omega) _))

/-- The step of SP, if there is one, is in range. -/
def SpStepOk (s : State) (i : Instr) : Prop := ∀ v, spStep s i = some v → 0 ≤ v ∧ v ≤ 255

/-- A sequential address past the top is raised last. -/
theorem exec_of_seq_error (hok : OperandsOk s i) (hsp : SpStepOk s i) (huse : usesSeq s i = true)
    (hseq : 255 < s.pc.toNat + i.mnemonic.length) :
    exec i s = .next (s.takeFault (addressOutOfRange .mem 256)) := by
  obtain ⟨hop, hreg⟩ := hok
  cases i with
    simp only [SpStepOk, spStep, usesSeq, Instr.regOperands, List.mem_cons, List.not_mem_nil, or_false,
      forall_eq_or_imp, forall_eq, Instr.mnemonic, Mnemonic.length, Mnemonic.format, Format.operandCount,
      Option.some.injEq, reduceCtorEq] at hsp hreg hop hseq huse
  | push b | call b =>
    obtain ⟨hlo, -⟩ := hsp _ rfl
    exact transact_of_error (operand_register_bind hop hreg
      (bind_of_ok (spDec_of_pos (by omega)) (seq_error_bind (by omega) _)))
  | pop b =>
    rw [← sp_setReg] at hsp
    obtain ⟨-, hhi⟩ := hsp _ rfl
    exact transact_of_error (operand_register_bind hop hreg
      (bind_of_ok (spInc_of_lt (by omega)) (seq_error_bind (by omega) _)))
  | prn b =>
    exact transact_of_error (operand_register_bind hop hreg (seq_error_bind (by omega) _))
  | jeq b =>
    rw [exec, execJeq, show s.flags.e = false by simpa using huse]
    exact transact_of_error (operand_register_bind hop hreg (seq_error_bind (by omega) _))
  | jne b =>
    rw [exec, execJne, huse]
    exact transact_of_error (operand_register_bind hop hreg (seq_error_bind (by omega) _))
  | ldi b v =>
    exact transact_of_error (bind_of_ok (operandAddr_of_le (by omega)) (bind_of_ok (operandAddr_of_le hop)
      (bind_of_ok (regIdx_regOf hreg) (seq_error_bind (by omega) _))))
  | add b c | mult b c | cmp b c =>
    obtain ⟨hb, hc⟩ := hreg
    exact transact_of_error (bind_of_ok (operandAddr_of_le (by omega)) (bind_of_ok (operandAddr_of_le hop)
      (bind_of_ok (regIdx_regOf hb) (bind_of_ok (regIdx_regOf hc) (seq_error_bind (by omega) _)))))

/-! ### All checks pass -/

/-- With every check passed, the instruction commits. -/
theorem commit_of_checks (hok : OperandsOk s i) (hsp : SpStepOk s i)
    (hseq : usesSeq s i = true → s.pc.toNat + i.mnemonic.length ≤ 255) : ∃ t, Commit i s t := by
  obtain ⟨hop, hreg⟩ := hok
  cases i with
    simp only [SpStepOk, spStep, usesSeq, Instr.regOperands, List.mem_cons, List.not_mem_nil, or_false,
      forall_eq_or_imp, forall_eq, Instr.mnemonic, Mnemonic.length, Mnemonic.format, Format.operandCount,
      Option.some.injEq, reduceCtorEq] at hsp hreg hop hseq
  | hlt => exact ⟨_, rfl⟩
  | ret =>
    obtain ⟨-, hhi⟩ := hsp _ rfl
    exact ⟨_, by omega, rfl⟩
  | push b | call b =>
    obtain ⟨hlo, -⟩ := hsp _ rfl
    exact ⟨_, _, eq_regByte_regOf hreg, hseq trivial, by omega, rfl⟩
  | pop b =>
    rw [← sp_setReg] at hsp
    obtain ⟨-, hhi⟩ := hsp _ rfl
    exact ⟨_, _, eq_regByte_regOf hreg, hseq trivial, by omega, rfl⟩
  | prn b => exact ⟨_, _, eq_regByte_regOf hreg, hseq trivial, rfl⟩
  | jmp b => exact ⟨_, _, eq_regByte_regOf hreg, hop, rfl⟩
  | jeq b =>
    cases he : s.flags.e with
    | true => exact ⟨_, _, eq_regByte_regOf hreg, .inl ⟨he, hop, rfl⟩⟩
    | false => exact ⟨_, _, eq_regByte_regOf hreg, .inr ⟨he, hseq (by simp [he]), rfl⟩⟩
  | jne b =>
    cases he : s.flags.e with
    | true => exact ⟨_, _, eq_regByte_regOf hreg, .inr ⟨he, hseq he, rfl⟩⟩
    | false => exact ⟨_, _, eq_regByte_regOf hreg, .inl ⟨he, hop, rfl⟩⟩
  | ldi b v => exact ⟨_, _, eq_regByte_regOf hreg, hseq trivial, rfl⟩
  | add b c | mult b c | cmp b c =>
    obtain ⟨hb, hc⟩ := hreg
    exact ⟨_, _, _, eq_regByte_regOf hb, eq_regByte_regOf hc, hseq trivial, rfl⟩

/-! ### The first check that fails (R125) -/

theorem operandsOk_iff : OperandsOk s i ↔ s.pc.toNat + i.mnemonic.format.operandCount ≤ 255 ∧
    i.regOperands.find? (fun b => 7 < b.toNat) = none := by
  simp [OperandsOk, List.find?_eq_none]

/-- The last item of the list, as `firstFault` has it. -/
def seqFault (s : State) (i : Instr) : Option (AddrKind × Int) :=
  if usesSeq s i ∧ s.pc.toNat + i.mnemonic.length > 255 then some (.mem, 256) else none

/-- With all else passed, the sequential address decides. -/
theorem exec_seqFault (hok : OperandsOk s i) (hsp : SpStepOk s i) :
    (∃ info, seqFault s i = some info ∧ exec i s = .next (s.takeFault (addressOutOfRange info.1 info.2))) ∨
      (seqFault s i = none ∧ ∃ t, Commit i s t) := by
  unfold seqFault
  split
  · next hseq => exact .inl ⟨_, rfl, exec_of_seq_error hok hsp hseq.1 hseq.2⟩
  · next hseq => exact .inr ⟨rfl, commit_of_checks hok hsp fun huse => by simpa [huse] using hseq⟩

/-- The first failing check of the list is the fault, and with none failing the instruction commits. -/
theorem exec_firstFault (i : Instr) (s : State) :
    (∃ info, firstFault s i = some info ∧ exec i s = .next (s.takeFault (addressOutOfRange info.1 info.2))) ∨
      (firstFault s i = none ∧ ∃ t, Commit i s t) := by
  unfold firstFault
  split
  · next hop => exact .inl ⟨_, rfl, operandPastTopFaults i s hop⟩
  next hop =>
  split
  · next b hb => exact .inl ⟨_, rfl, registerByteAboveSevenFaults i s b (by omega) hb⟩
  next hreg =>
  have hok : OperandsOk s i := operandsOk_iff.mpr ⟨by omega, hreg⟩
  split
  · next v hv =>
    split
    · next hr => exact .inl ⟨_, rfl, exec_of_spStep_error hok hv hr⟩
    · next hr => exact exec_seqFault hok fun w hw => by rw [hv] at hw; cases hw; omega
  · next hv => exact exec_seqFault hok fun w hw => by rw [hv] at hw; cases hw

/-- Settles O37: each check of the list, in its order, decides the outcome if those before it pass. -/
theorem firstFailingCheckDecides : Obligations.FirstFailingCheckDecides := by
  intro i s
  obtain ⟨info, hf, h⟩ | ⟨hf, t, hc⟩ := exec_firstFault i s
  · rw [hf]; exact h
  · rw [hf]; exact ⟨t, exec_of_commit hc, commit_run hc⟩

/-! ### `pc` and SP never wrap -/

theorem not_gt_of_wellFormed (h : i.wellFormed = true) : ∀ b ∈ i.regOperands, ¬ 7 < b.toNat := by
  simpa [Instr.wellFormed, regByteOk] using h

/-- Settles O36: with the other checks passed, the sequential address is the one that fails. -/
theorem programCounterNeverWraps : Obligations.ProgramCounterNeverWraps := by
  intro i s hwf hlen huse hsp
  have hop : s.pc.toNat + i.mnemonic.format.operandCount ≤ 255 := by rw [Mnemonic.length] at hlen; omega
  exact exec_of_seq_error ⟨hop, not_gt_of_wellFormed hwf⟩ hsp huse (by omega)

theorem not_gt_regByte (r : RegNum) : ¬ 7 < (regByte r).toNat := by revert r; decide

/-- The operand checks of an instruction on one register. -/
theorem operandsOk_of_one {r : RegNum} (hcount : i.mnemonic.format.operandCount = 1)
    (hreg : i.regOperands = [regByte r]) (hp : s.pc.toNat ≤ 0xFE) : OperandsOk s i := by
  refine ⟨by omega, fun b hb => ?_⟩
  obtain rfl : b = regByte r := by simpa [hreg] using hb
  exact not_gt_regByte r

/-- Settles O35: the operands are in order, and the step of SP is -1 or 256. -/
theorem stackPointerNeverWraps : Obligations.StackPointerNeverWraps := by
  intro r s
  refine ⟨fun hsp hp => ?_, fun hsp => ?_, fun hr hsp hp => ?_, fun hv hp => ?_⟩
  · constructor <;>
      exact exec_of_spStep_error (operandsOk_of_one rfl rfl hp) (by rw [spStep, hsp]; rfl) (.inl (by decide))
  · have hok : OperandsOk s .ret := operandsOk_iff.mpr ⟨Nat.le_of_lt_succ s.pc.isLt, rfl⟩
    exact exec_of_spStep_error hok (by rw [spStep, hsp]; rfl) (.inr (by decide))
  · have hstep : spStep s (.pop (regByte r)) = some 256 := by
      rw [spStep, regOf_regByte, if_neg hr, hsp]; rfl
    exact exec_of_spStep_error (operandsOk_of_one rfl rfl hp) hstep (.inr (by decide))
  · have hstep : spStep s (.pop (regByte 7)) = some 256 := by
      rw [spStep, regOf_regByte, if_pos rfl, hv]; rfl
    exact exec_of_spStep_error (operandsOk_of_one (i := .pop (regByte 7)) rfl rfl hp) hstep (.inr (by decide))

end Sys2Proof.Machine
end

section
/-! ## What a commit writes and leaves, by the spec's tables (R9, R12, R14, R40) -/

namespace Sys2Proof.Machine

variable {s t : State} {i : Instr}

/-! ### Registers written (R12) -/

theorem setReg_sameRegsExcept (s : State) (a : RegNum) (v : Byte) : SameRegsExcept [a] s (s.setReg a v) :=
  fun _ hr => reg_setReg_ne s (List.ne_of_not_mem_cons hr) v

theorem setReg_setSp_sameRegsExcept (s : State) (a : RegNum) (v w : Byte) :
    SameRegsExcept [a, 7] s ((s.setReg a v).setSp w) := by
  intro r hr
  obtain ⟨ha, h7⟩ : r ≠ a ∧ r ≠ 7 := by simpa using hr
  rw [reg_setSp, if_neg h7, reg_setReg_ne s ha]

/-- A commit writes the registers of the table's row and no other. -/
theorem commit_regs (h : Commit i s t) : SameRegsExcept (regsWritten i) s t := by
  cases i with simp only [Commit] at h
  | hlt => subst h; exact fun _ _ => rfl
  | ret => obtain ⟨-, rfl⟩ := h; exact setReg_sameRegsExcept s 7 _
  | push b | call b => obtain ⟨r, -, -, -, rfl⟩ := h; exact setReg_sameRegsExcept s 7 _
  | pop b =>
    obtain ⟨r, rfl, -, -, rfl⟩ := h
    rw [regsWritten, regOf_regByte]
    exact setReg_setSp_sameRegsExcept s r _ _
  | prn b | jmp b => obtain ⟨r, -, -, rfl⟩ := h; exact fun _ _ => rfl
  | jeq b | jne b => obtain ⟨r, -, ⟨-, -, rfl⟩ | ⟨-, -, rfl⟩⟩ := h <;> exact fun _ _ => rfl
  | ldi b v =>
    obtain ⟨r, rfl, -, rfl⟩ := h
    rw [regsWritten, regOf_regByte]
    exact setReg_sameRegsExcept s r v
  | add b c | mult b c =>
    obtain ⟨r, q, rfl, -, -, rfl⟩ := h
    rw [regsWritten, regOf_regByte]
    exact setReg_sameRegsExcept s r _
  | cmp b c => obtain ⟨r, q, -, -, -, rfl⟩ := h; exact fun _ _ => rfl

/-- Settles O41: a commit writes what the row lists, and a fault writes no register. -/
theorem registersWritten : Obligations.RegistersWritten := by
  intro i s t h
  obtain hc | ⟨r, -, rfl⟩ := exec_next h
  · exact commit_regs hc
  · exact fun _ _ => rfl

/-! ### Memory (R20, R40) -/

theorem storeAddr_push (b : Byte) (hsp : 0 < s.sp.toNat) : storeAddr s (.push b) = some s.belowSp := by
  rw [storeAddr, spDec_of_pos hsp]; rfl

theorem storeAddr_call (b : Byte) (hsp : 0 < s.sp.toNat) : storeAddr s (.call b) = some s.belowSp := by
  rw [storeAddr, spDec_of_pos hsp]; rfl

theorem push_sameMemoryExcept (s : State) (d v : Byte) : SameMemoryExcept d s (s.push d v) := by
  intro a ha
  rw [memRead_push, if_neg ha]

/-- A commit stores to no byte but the one the instruction has an address for. -/
theorem commit_memRead (h : Commit i s t) {a : Byte} (ha : ∀ d, storeAddr s i = some d → a ≠ d) :
    t.memRead a = s.memRead a := by
  cases i with simp only [Commit] at h
  | hlt => subst h; rfl
  | ret => obtain ⟨-, rfl⟩ := h; rfl
  | push b =>
    obtain ⟨r, -, -, hsp, rfl⟩ := h
    exact push_sameMemoryExcept s _ _ a (ha _ (storeAddr_push b hsp))
  | call b =>
    obtain ⟨r, -, -, hsp, rfl⟩ := h
    exact push_sameMemoryExcept s _ _ a (ha _ (storeAddr_call b hsp))
  | pop b => obtain ⟨r, -, -, -, rfl⟩ := h; rfl
  | prn b | jmp b | ldi b => obtain ⟨r, -, -, rfl⟩ := h; rfl
  | jeq b | jne b => obtain ⟨r, -, ⟨-, -, rfl⟩ | ⟨-, -, rfl⟩⟩ := h <;> rfl
  | add b c | mult b c | cmp b c => obtain ⟨r, q, -, -, -, rfl⟩ := h; rfl

/-- Settles O44: a commit stores to its address only, and a fault stores nothing. -/
theorem memoryFrame : Obligations.MemoryFrame := by
  intro i s t h a ha
  obtain hc | ⟨r, -, rfl⟩ := exec_next h
  · exact commit_memRead hc ha
  · rfl

/-! ### Output (R9, R19) -/

theorem commit_out (h : Commit i s t) :
    t.out = s.out ∨ ∃ r : RegNum, i = .prn (regByte r) ∧ t.out = s.out ++ [s.reg r] := by
  cases i with simp only [Commit] at h
  | hlt => subst h; exact .inl rfl
  | ret => obtain ⟨-, rfl⟩ := h; exact .inl rfl
  | push b | pop b | call b => obtain ⟨r, -, -, -, rfl⟩ := h; exact .inl rfl
  | prn b => obtain ⟨r, rfl, -, rfl⟩ := h; exact .inr ⟨r, rfl, rfl⟩
  | jmp b | ldi b => obtain ⟨r, -, -, rfl⟩ := h; exact .inl rfl
  | jeq b | jne b => obtain ⟨r, -, ⟨-, -, rfl⟩ | ⟨-, -, rfl⟩⟩ := h <;> exact .inl rfl
  | add b c | mult b c | cmp b c => obtain ⟨r, q, -, -, -, rfl⟩ := h; exact .inl rfl

/-- Settles O45: of the commits only PRN's outputs, and a fault outputs nothing. -/
theorem outputOnlyByPrn : Obligations.OutputOnlyByPrn := by
  intro i s t h
  obtain hc | ⟨r, -, rfl⟩ := exec_next h
  · exact commit_out hc
  · exact .inl rfl

/-! ### The program counter (R14) -/

/-- A sequential address that is in range is the table's. -/
theorem toNat_pc_add {n : Nat} (h : s.pc.toNat + n ≤ 255) :
    ((BitVec.ofNat 8 (s.pc.toNat + n)).toNat : Int) = s.pc.toNat + n := by
  rw [toNat_ofNat_of_le h]; rfl

/-- CALL's target is the new SP for R7, and else the register. -/
theorem toNat_callTarget (r : RegNum) (hsp : 0 < s.sp.toNat) :
    (((s.setSp s.belowSp).reg r).toNat : Int) = if r = 7 then (s.sp.toNat : Int) - 1 else (s.reg r).toNat := by
  have hbelow : s.belowSp.toNat + 1 = s.sp.toNat := toNat_belowSp hsp
  rw [reg_setSp]
  split
  · omega
  · rfl

theorem commit_pc (h : Commit i s t) : (t.pc.toNat : Int) = pcAfter s i := by
  cases i with simp only [Commit] at h
  | hlt => subst h; rfl
  | ret => obtain ⟨-, rfl⟩ := h; rfl
  | push b | pop b => obtain ⟨r, -, hp, -, rfl⟩ := h; exact toNat_pc_add hp
  | call b =>
    obtain ⟨r, rfl, -, hsp, rfl⟩ := h
    rw [pcAfter, regOf_regByte]
    exact toNat_callTarget r hsp
  | prn b | ldi b => obtain ⟨r, -, hp, rfl⟩ := h; exact toNat_pc_add hp
  | jmp b => obtain ⟨r, rfl, -, rfl⟩ := h; rw [pcAfter, regOf_regByte]; rfl
  | jeq b | jne b =>
    obtain ⟨r, rfl, ⟨he, -, rfl⟩ | ⟨he, hp, rfl⟩⟩ := h
    · rw [pcAfter, regOf_regByte, he]; rfl
    · rw [pcAfter, he]; exact toNat_pc_add hp
  | add b c | mult b c | cmp b c => obtain ⟨r, q, -, -, hp, rfl⟩ := h; exact toNat_pc_add hp

/-- Settles O43: a running core that is not faulted after the instruction has committed it; a fault keeps `pc`. -/
theorem programCounterTable : Obligations.ProgramCounterTable := by
  intro i s t hrun h
  obtain hc | ⟨r, -, rfl⟩ := exec_next h
  · exact ⟨fun _ => commit_pc hc, fun hf => absurd hf (commit_run_of_running hrun hc).2.1⟩
  · exact ⟨fun hn => absurd rfl hn, fun _ => rfl⟩

/-! ### Registers read (R12) -/

variable {r : RegNum} {v : Byte}

theorem sp_setReg_ne (h : r ≠ 7) (v : Byte) : (s.setReg r v).sp = s.sp := reg_setReg_ne s h.symm v

/-- A register outside the row of the table has no part in the step of SP. -/
theorem spStep_setReg (hread : r ∉ regsRead s i) : spStep (s.setReg r v) i = spStep s i := by
  cases i with simp only [spStep]
  | ret | push b | call b => rw [sp_setReg_ne (List.ne_of_not_mem_cons hread)]
  | pop b => rw [sp_setReg_ne (List.ne_of_not_mem_cons hread), setReg_memRead]

/-- A register outside the row of the table has no part in any check. -/
theorem firstFault_setReg (hread : r ∉ regsRead s i) : firstFault (s.setReg r v) i = firstFault s i := by
  have huse : usesSeq (s.setReg r v) i = usesSeq s i := by cases i <;> rfl
  simp only [firstFault, spStep_setReg hread, huse, setReg_pc]

theorem setSp_setReg (h : r ≠ 7) (w : Byte) : (s.setReg r v).setSp w = (s.setSp w).setReg r v :=
  setReg_comm s h v w

theorem push_setReg (h : r ≠ 7) (d w : Byte) : (s.setReg r v).push d w = (s.push d w).setReg r v :=
  congrArg (State.memWrite · d w) (setSp_setReg h d)

theorem reg_setSp_setReg {q : RegNum} (h : q ≠ r) (d : Byte) :
    ((s.setReg r v).setSp d).reg q = (s.setSp d).reg q := by
  rw [reg_setSp, reg_setSp, reg_setReg_ne s h]

theorem alu_setReg {op : AluOp} {a b : RegNum} (ha : r ≠ a) (hb : r ≠ b) :
    (s.setReg r v).alu op a b = (s.alu op a b).setReg r v := by
  cases op with simp only [State.alu, reg_setReg_ne s ha.symm, reg_setReg_ne s hb.symm]
  | add | mult => exact setReg_comm s ha v _
  | compare => rfl

/-- A commit carries a change of a register outside the row of the table through unread. -/
theorem commit_setReg (hread : r ∉ regsRead s i) (hwrite : r ∉ regsWritten i) (h : Commit i s t) :
    Commit i (s.setReg r v) (t.setReg r v) := by
  cases i with simp only [Commit] at h
  | hlt => subst h; rfl
  | ret =>
    obtain ⟨hsp, rfl⟩ := h
    have h7 : r ≠ 7 := List.ne_of_not_mem_cons hread
    rw [Commit, sp_setReg_ne h7, setSp_setReg h7]
    exact ⟨hsp, rfl⟩
  | push b =>
    obtain ⟨q, rfl, hp, hsp, rfl⟩ := h
    obtain ⟨h7, hq⟩ : r ≠ 7 ∧ r ≠ q := by simpa [regsRead] using hread
    refine ⟨q, rfl, hp, ?_, ?_⟩
    · rwa [sp_setReg_ne h7]
    · rw [sp_setReg_ne h7, reg_setSp_setReg hq.symm, push_setReg h7]
      rfl
  | pop b =>
    obtain ⟨q, rfl, hp, hsp, rfl⟩ := h
    obtain ⟨hq, h7⟩ : r ≠ q ∧ r ≠ 7 := by simpa [regsWritten] using hwrite
    have hload : (s.setReg r v).setReg q ((s.setReg r v).memRead (s.setReg r v).sp) =
        (s.setReg q (s.memRead s.sp)).setReg r v := by
      rw [sp_setReg_ne h7, setReg_memRead, setReg_comm s hq]
    refine ⟨q, rfl, hp, ?_, ?_⟩
    · rwa [hload, sp_setReg_ne h7]
    · rw [hload, sp_setReg_ne h7, setSp_setReg h7]
      rfl
  | prn b =>
    obtain ⟨q, rfl, hp, rfl⟩ := h
    have hq : r ≠ q := by simpa [regsRead] using hread
    exact ⟨q, rfl, hp, by rw [reg_setReg_ne s hq.symm]; rfl⟩
  | call b =>
    obtain ⟨q, rfl, hp, hsp, rfl⟩ := h
    obtain ⟨h7, hq⟩ : r ≠ 7 ∧ r ≠ q := by simpa [regsRead] using hread
    refine ⟨q, rfl, hp, ?_, ?_⟩
    · rwa [sp_setReg_ne h7]
    · rw [sp_setReg_ne h7, reg_setSp_setReg hq.symm, push_setReg h7]
      rfl
  | jmp b =>
    obtain ⟨q, rfl, hp, rfl⟩ := h
    have hq : r ≠ q := by simpa [regsRead] using hread
    exact ⟨q, rfl, hp, by rw [reg_setReg_ne s hq.symm]; rfl⟩
  | jeq b | jne b =>
    obtain ⟨q, rfl, ⟨he, hp, rfl⟩ | ⟨he, hp, rfl⟩⟩ := h
    · have hq : r ≠ q := by simpa [regsRead, he] using hread
      exact ⟨q, rfl, .inl ⟨he, hp, by rw [reg_setReg_ne s hq.symm]; rfl⟩⟩
    · exact ⟨q, rfl, .inr ⟨he, hp, rfl⟩⟩
  | ldi b w =>
    obtain ⟨q, rfl, hp, rfl⟩ := h
    have hq : r ≠ q := by simpa [regsWritten] using hwrite
    exact ⟨q, rfl, hp, by rw [setReg_comm s hq]; rfl⟩
  | add b c | mult b c | cmp b c =>
    obtain ⟨q, p, rfl, rfl, hp, rfl⟩ := h
    obtain ⟨hq, hr⟩ : r ≠ q ∧ r ≠ p := by simpa [regsRead] using hread
    exact ⟨q, p, rfl, rfl, hp, by rw [alu_setReg hq hr]; rfl⟩

/-- Settles O42: the change affects no check, and a fault or a commit carries it through. -/
theorem registersRead : Obligations.RegistersRead := by
  intro i s r v hread hwrite
  have hsame := firstFault_setReg (v := v) hread
  obtain ⟨info, hf, h⟩ | ⟨hf, t, hc⟩ := exec_firstFault i s
  · obtain ⟨info', hf', h'⟩ | ⟨hf', -⟩ := exec_firstFault i (s.setReg r v)
    · obtain rfl : info' = info := by simpa [hf', hf] using hsame
      rw [h, h']
      rfl
    · simp [hf', hf] at hsame
  · rw [exec_of_commit hc, exec_of_commit (commit_setReg hread hwrite hc)]
    rfl

end Sys2Proof.Machine
end

section
/-! ## What each instruction does when its checks pass (R71 to R111) -/

namespace Sys2Proof.Machine

variable {s : State}

/-! ### HLT, LDI, PRN -/

/-- Settles O14: HLT has no check, so it commits. -/
theorem hltResult : Obligations.HltResult :=
  fun _ => exec_of_commit (i := .hlt) rfl

theorem exec_ldi (r : RegNum) (v : Byte) (hp : s.pc.toNat ≤ 0xFC) : exec (.ldi (regByte r) v) s =
    .next ((s.setReg r v).setPc (BitVec.ofNat 8 (s.pc.toNat + 3))) :=
  exec_of_commit ⟨r, rfl, by omega, rfl⟩

/-- At the top of memory LDI has no room for its operand bytes, or for its sequential address. -/
theorem exec_ldi_at_top (r : RegNum) (v : Byte) (hp : 0xFD ≤ s.pc.toNat) :
    exec (.ldi (regByte r) v) s = .next (faulted s .addressOutOfRange (some (.mem, 256))) := by
  by_cases hop : s.pc.toNat + 2 ≤ 255
  · have hwf : (Instr.ldi (regByte r) v).wellFormed = true := by
      simp [Instr.wellFormed, Instr.regOperands, regByteOk, Nat.le_of_not_lt (not_gt_regByte r)]
    have hlen : s.pc.toNat + 3 = 256 := by omega
    exact programCounterNeverWraps (.ldi (regByte r) v) s hwf hlen rfl fun w hw => nomatch hw
  · exact operandPastTopFaults (.ldi (regByte r) v) s (Nat.lt_of_not_le hop)

/-- Settles O15: LDI's commit, or its fault at the top of memory. -/
theorem ldiResult : Obligations.LdiResult := by
  intro r v s
  constructor
  · intro hp
    exact ⟨_, exec_ldi r v hp, reg_setReg_self s r v, toNat_ofNat_of_le (by omega), setReg_sameRegsExcept s r v, rfl,
      fun _ => rfl, ⟨rfl, rfl⟩, rfl⟩
  · exact exec_ldi_at_top r v

theorem exec_prn (r : RegNum) (hp : s.pc.toNat ≤ 0xFD) : exec (.prn (regByte r)) s =
    .next ((s.output (s.reg r)).setPc (BitVec.ofNat 8 (s.pc.toNat + 2))) :=
  exec_of_commit ⟨r, rfl, by omega, rfl⟩

/-- Settles O16: PRN commits an output and the new `pc`. -/
theorem prnResult : Obligations.PrnResult :=
  fun r _ hp => ⟨_, exec_prn r hp, rfl, toNat_fallThrough hp, fun _ _ => rfl, rfl, fun _ => rfl, ⟨rfl, rfl⟩⟩

/-! ### ADD, MULT, CMP -/

/-- Settles O17: ADD commits one register and the new `pc`. -/
theorem addResult : Obligations.AddResult :=
  fun a b s hp => ⟨_, exec_add a b hp, toNat_reg_alu_add s a b, toNat_ofNat_of_le (by omega),
    setReg_sameRegsExcept s a _, rfl, fun _ => rfl, ⟨rfl, rfl⟩, rfl⟩

/-- Settles O18: MULT commits one register and the new `pc`. -/
theorem multResult : Obligations.MultResult :=
  fun a b s hp => ⟨_, exec_mult a b hp, toNat_reg_alu_mult s a b, toNat_ofNat_of_le (by omega),
    setReg_sameRegsExcept s a _, rfl, fun _ => rfl, ⟨rfl, rfl⟩, rfl⟩

/-- Settles O19: CMP commits `compareFlags` of the two registers and the new `pc`. -/
theorem cmpResult : Obligations.CmpResult :=
  fun a b s hp => ⟨_, exec_cmp a b hp, compareFlags_e (s.reg a) (s.reg b), compareFlags_l (s.reg a) (s.reg b),
    compareFlags_g (s.reg a) (s.reg b), toNat_ofNat_of_le (by omega), fun _ _ => rfl, fun _ => rfl, ⟨rfl, rfl⟩, rfl⟩

/-! ### PUSH and POP -/

/-- Settles O23: `afterPush` is the state PUSH leaves, and its store is at the cell below SP. -/
theorem pushResult : Obligations.PushResult := by
  intro r s hp hsp
  have hstore : storeAddr s (.push (regByte r)) = some s.belowSp := storeAddr_push (regByte r) hsp
  refine ⟨s.afterPush r, exec_push hp hsp, ?_⟩
  rw [afterPush_sp, hstore]
  refine ⟨toNat_belowSp hsp, ?_, rfl, toNat_afterPush_pc hp, setReg_sameRegsExcept s 7 _, rfl, ⟨rfl, rfl⟩, rfl⟩
  intro d hd
  cases hd
  refine ⟨rfl, ?_, push_sameMemoryExcept s _ _⟩
  rw [State.afterPush, setPc_memRead, memRead_push, if_pos rfl, pushedByte_eq]

/-- The state POP commits when the register loaded is not SP (R101). -/
theorem exec_pop_ne_sp {r : RegNum} (hr : r ≠ 7) (hp : s.pc.toNat ≤ 0xFD) (hsp : s.sp.toNat < 255) :
    exec (.pop (regByte r)) s = .next (((s.setReg r (s.memRead s.sp)).setSp (BitVec.ofNat 8 (s.sp.toNat + 1))).setPc
      (BitVec.ofNat 8 (s.pc.toNat + 2))) := by
  have hkeep : (s.setReg r (s.memRead s.sp)).sp = s.sp := sp_setReg_ne hr _
  exact exec_of_commit ⟨r, rfl, by omega, by rw [hkeep]; omega, by rw [hkeep]⟩

/-- POP R7 steps the byte it has loaded into SP (R101, D22). -/
theorem exec_pop_sp (hp : s.pc.toNat ≤ 0xFD) (hv : (s.memRead s.sp).toNat < 255) : exec (.pop (regByte 7)) s =
    .next ((s.setSp (BitVec.ofNat 8 ((s.memRead s.sp).toNat + 1))).setPc (BitVec.ofNat 8 (s.pc.toNat + 2))) := by
  have hload : (s.setReg 7 (s.memRead s.sp)).sp = s.memRead s.sp := sp_setSp s _
  refine exec_of_commit ⟨7, rfl, by omega, by rw [hload]; omega, ?_⟩
  rw [hload]
  simp only [State.setSp, State.setReg, Config.spIndex, Vector.set_set]

/-- Settles O24: POP of another register steps the old SP, POP R7 the byte it has loaded into SP. -/
theorem popResult : Obligations.PopResult := by
  intro r s hp
  constructor
  · intro hr hsp
    refine ⟨_, exec_pop_ne_sp hr hp hsp, ?_, ?_, toNat_fallThrough hp, setReg_setSp_sameRegsExcept s r _ _, rfl,
      fun _ => rfl, ⟨rfl, rfl⟩, rfl⟩
    · rw [setPc_reg, reg_setSp, if_neg hr, reg_setReg_self]
    · rw [setPc_sp, sp_setSp, toNat_ofNat_of_le (by omega)]
  · rintro rfl hv
    refine ⟨_, exec_pop_sp hp hv, ?_, toNat_fallThrough hp, setReg_sameRegsExcept s 7 _, rfl, fun _ => rfl,
      ⟨rfl, rfl⟩, rfl⟩
    rw [setPc_sp, sp_setSp, toNat_ofNat_of_le (by omega)]

/-! ### CALL and RET -/

/-- The state CALL commits (R105). -/
def State.afterCall (s : State) (r : RegNum) : State :=
  (s.push s.belowSp (BitVec.ofNat 8 (s.pc.toNat + 2))).setPc ((s.setSp s.belowSp).reg r)

theorem exec_call {r : RegNum} (hp : s.pc.toNat ≤ 0xFD) (hsp : 0 < s.sp.toNat) :
    exec (.call (regByte r)) s = .next (s.afterCall r) :=
  exec_of_commit ⟨r, rfl, by omega, hsp, rfl⟩

@[simp] theorem afterCall_sp (s : State) (r : RegNum) : (s.afterCall r).sp = s.belowSp :=
  sp_push s s.belowSp (BitVec.ofNat 8 (s.pc.toNat + 2))

theorem afterCall_pc (s : State) (r : RegNum) : (s.afterCall r).pc = if r = 7 then s.belowSp else s.reg r :=
  reg_setSp s r s.belowSp

theorem afterCall_memRead (s : State) (r : RegNum) (d : Byte) :
    (s.afterCall r).memRead d = if d = s.belowSp then BitVec.ofNat 8 (s.pc.toNat + 2) else s.memRead d :=
  memRead_push s s.belowSp _ d

/-- Settles O26: `afterCall` is the state CALL leaves, and its store is at the cell below SP. -/
theorem callResult : Obligations.CallResult := by
  intro r s hp hsp
  have hstore : storeAddr s (.call (regByte r)) = some s.belowSp := storeAddr_call (regByte r) hsp
  refine ⟨s.afterCall r, exec_call hp hsp, ?_⟩
  rw [afterCall_sp, hstore]
  refine ⟨toNat_belowSp hsp, afterCall_pc s r, ?_, rfl, setReg_sameRegsExcept s 7 _, rfl, ⟨rfl, rfl⟩, rfl⟩
  intro d hd
  cases hd
  exact ⟨rfl, by rw [afterCall_memRead, if_pos rfl, toNat_fallThrough hp], push_sameMemoryExcept s _ _⟩

theorem exec_ret (hsp : s.sp.toNat < 255) :
    exec .ret s = .next ((s.setSp (BitVec.ofNat 8 (s.sp.toNat + 1))).setPc (s.memRead s.sp)) :=
  exec_of_commit (i := .ret) ⟨by omega, rfl⟩

/-- Settles O27: RET commits SP and the popped `pc`. -/
theorem retResult : Obligations.RetResult := by
  intro s hsp
  refine ⟨_, exec_ret hsp, rfl, ?_, setReg_sameRegsExcept s 7 _, rfl, fun _ => rfl, ⟨rfl, rfl⟩, rfl⟩
  rw [setPc_sp, sp_setSp, toNat_ofNat_of_le (by omega)]

/-- A RET stands in a single byte. -/
theorem step_of_ret (hrun : s.run = .running) (hop : s.memRead s.pc = opcode .RET) : step s = exec .ret s := by
  have hprefix : encode .ret <+: s.fetchBytes := ⟨s.bytesAfterPc, by rw [State.fetchBytes, hop]; rfl⟩
  exact step_of_fetchInstr hrun (fetchInstr_of_prefix hprefix)

theorem belowSp_eq_sub_one (hsp : 0 < s.sp.toNat) : s.belowSp = s.sp - 1 := by
  have := toNat_belowSp hsp
  bv_omega

/-- A RET right after a CALL leaves the return address below SP and in `pc`, and nothing else. -/
theorem exec_ret_afterCall {r : RegNum} (hsp : 0 < s.sp.toNat) : exec .ret (s.afterCall r) =
    .next ((s.memWrite s.belowSp (BitVec.ofNat 8 (s.pc.toNat + 2))).setPc (BitVec.ofNat 8 (s.pc.toNat + 2))) := by
  have hbelow : s.belowSp.toNat + 1 = s.sp.toNat := toNat_belowSp hsp
  have hback : (s.afterCall r).setSp s.sp =
      (s.memWrite s.belowSp (BitVec.ofNat 8 (s.pc.toNat + 2))).setPc (s.afterCall r).pc :=
    congrArg (State.setPc · (s.afterCall r).pc) (push_setSp_sp s s.belowSp (BitVec.ofNat 8 (s.pc.toNat + 2)))
  have := s.sp.isLt
  rw [exec_ret (by rw [afterCall_sp]; omega), afterCall_sp, hbelow, BitVec.ofNat_toNat, BitVec.setWidth_eq, hback,
    afterCall_memRead, if_pos rfl]
  rfl

/-- Settles O32: the RET pops the return address that the CALL has just pushed, and SP is back. -/
theorem callThenRet : Obligations.CallThenRet := by
  intro r s hrun hp hsp hop hb
  have hcall : step s = .next (s.afterCall r) := by
    rw [step_of_opcode_operand (i := .call (regByte r)) rfl hrun (by omega) hop hb, exec_call hp hsp]
  refine ⟨s.afterCall r, hcall, by rw [afterCall_sp, afterCall_pc], fun hret => ?_⟩
  have hrun' : (s.afterCall r).run = .running := hrun
  refine ⟨_, (step_of_ret hrun' hret).trans (exec_ret_afterCall hsp), toNat_fallThrough hp, rfl, ?_⟩
  rw [← belowSp_eq_sub_one hsp]
  refine ⟨?_, memWrite_sameMemoryExcept s _ _, fun _ _ => rfl, rfl, ⟨rfl, rfl⟩, rfl⟩
  rw [setPc_memRead, memRead_memWrite_same, toNat_fallThrough hp]

/-! ### JMP, JEQ, JNE -/

/-- Settles O28: JMP commits `pc` alone. -/
theorem jmpResult : Obligations.JmpResult :=
  fun r _ hp => exec_jmp r hp

/-- Settles O29: JEQ's commit, by E. -/
theorem jeqResult : Obligations.JeqResult :=
  fun r _ => ⟨exec_jeq_taken r, fun he hp => ⟨_, toNat_fallThrough hp, exec_jeq_not_taken r he hp⟩⟩

/-- Settles O30: JNE's commit, by E. -/
theorem jneResult : Obligations.JneResult :=
  fun r _ => ⟨exec_jne_taken r, fun he hp => ⟨_, toNat_fallThrough hp, exec_jne_not_taken r he hp⟩⟩

end Sys2Proof.Machine
end

section
/-! ## Canonical memories are determined by what they read (the model's form of R20) -/

namespace Sys2Proof.Machine

/-- A cell below every entry reads as its reset contents. -/
theorem Memory.read_of_lt_all {m : Memory} {a : Nat} (h : ∀ c ∈ m, a < c.1) : m.read a = Config.memReset := by
  induction m with
  | nil => rfl
  | cons c m ih =>
    have hc : a < c.1 := h c List.mem_cons_self
    rw [Memory.read, if_neg (Nat.ne_of_lt hc)]
    exact ih fun d hd => h d (List.mem_cons_of_mem c hd)

/-- A canonical memory, taken apart at its first entry. -/
theorem Memory.wf_cons {b : Nat} {w : Byte} {m : Memory} (h : Memory.wf ((b, w) :: m)) :
    (∀ c ∈ m, b < c.1) ∧ b < 256 ∧ w ≠ Config.memReset ∧ m.wf := by
  obtain ⟨hpair, hcells⟩ := h
  obtain ⟨hlt, hm⟩ := List.pairwise_cons.mp hpair
  obtain ⟨hb, hw⟩ := hcells (b, w) List.mem_cons_self
  exact ⟨hlt, hb, hw, hm, fun c hc => hcells c (List.mem_cons_of_mem _ hc)⟩

/-- A cell that does not read as its reset contents is not below every entry. -/
theorem Memory.exists_le_of_read_ne {n : Memory} {b : Nat} (h : n.read b ≠ Config.memReset) : ∃ c ∈ n, c.1 ≤ b := by
  by_contra hall
  simp only [not_exists, not_and, Nat.not_le] at hall
  exact h (Memory.read_of_lt_all hall)

/-- Of two canonical memories that read the same, neither has its first entry below the other's: that cell is not
reset. -/
theorem Memory.first_le {b c : Nat} {w x : Byte} {m n : Memory} (hm : Memory.wf ((b, w) :: m))
    (hn : Memory.wf ((c, x) :: n)) (h : ∀ a, a < 256 → Memory.read ((b, w) :: m) a = Memory.read ((c, x) :: n) a) :
    c ≤ b := by
  obtain ⟨-, hb, hw, -⟩ := Memory.wf_cons hm
  obtain ⟨hlt, -⟩ := Memory.wf_cons hn
  have hread : Memory.read ((c, x) :: n) b ≠ Config.memReset := by
    rw [← h b hb, Memory.read, if_pos rfl]
    exact hw
  obtain ⟨d, hd, hle⟩ := Memory.exists_le_of_read_ne hread
  obtain rfl | hd := List.mem_cons.mp hd
  · exact hle
  · exact Nat.le_trans (Nat.le_of_lt (hlt d hd)) hle

/-- Settles O47, by induction on both lists: the first entries agree, and without them the memories still read the
same. -/
theorem canonicalMemoryExtensional : Obligations.CanonicalMemoryExtensional := by
  intro m
  induction m with
  | nil =>
    rintro (_ | ⟨⟨c, x⟩, n⟩) - hn h
    · rfl
    · obtain ⟨-, hc, hx, -⟩ := Memory.wf_cons hn
      exact absurd (by simpa [Memory.read] using (h c hc).symm) hx
  | cons d m ih =>
    obtain ⟨b, w⟩ := d
    rintro (_ | ⟨⟨c, x⟩, n⟩) hm hn h
    · obtain ⟨-, hb, hw, -⟩ := Memory.wf_cons hm
      exact absurd (by simpa [Memory.read] using h b hb) hw
    obtain rfl : b = c := Nat.le_antisymm (Memory.first_le hn hm fun a ha => (h a ha).symm) (Memory.first_le hm hn h)
    obtain ⟨hmlt, hb, -, hmwf⟩ := Memory.wf_cons hm
    obtain ⟨hnlt, -, -, hnwf⟩ := Memory.wf_cons hn
    obtain rfl : w = x := by simpa [Memory.read] using h b hb
    have htail : ∀ a, a < 256 → Memory.read m a = Memory.read n a := by
      intro a ha
      by_cases hab : a = b
      · rw [hab, Memory.read_of_lt_all hmlt, Memory.read_of_lt_all hnlt]
      · simpa [Memory.read, hab] using h a ha
    rw [ih n hmwf hnwf htail]

end Sys2Proof.Machine
end

section
/-! ## A store is seen by the next fetch (R39) -/

namespace Sys2Proof.Machine

variable {s t : State} {i : Instr} {m : Mnemonic}

/-! ### What the opcode byte at `pc` decides -/

/-- An opcode with all its operand bytes in memory is fetched as an instruction of its row. -/
theorem fetchInstr_of_opcode (hop : s.memRead s.pc = opcode m) (hfit : s.pc.toNat + m.format.operandCount ≤ 255) :
    ∃ i : Instr, i.mnemonic = m ∧ encode i <+: s.fetchBytes ∧ fetchInstr s = .ok i := by
  cases ht : takeOperands m s.bytesAfterPc with
  | ok p =>
    obtain ⟨i, rest⟩ := p
    obtain ⟨rfl, hbytes⟩ := takeOperands_ok ht
    have hprefix : encode i <+: s.fetchBytes := ⟨rest, by rw [State.fetchBytes, hop, hbytes]; rfl⟩
    exact ⟨i, rfl, hprefix, fetchInstr_of_prefix hprefix⟩
  | error e =>
    obtain ⟨hshort, -⟩ := takeOperands_error ht
    have hm : m.format.operandCount ≤ 2 := by cases m <;> decide
    rw [bytesAfterPc_length] at hshort
    omega

/-- An opcode with an operand byte past the top of memory is not fetched. -/
theorem fetchInstr_past_top (hop : s.memRead s.pc = opcode m) (hpast : 255 < s.pc.toNat + m.format.operandCount) :
    fetchInstr s = .error (addressOutOfRange .mem 256) := by
  obtain ⟨i, rest, -, ho, hbytes⟩ | ⟨hd, -⟩ | ⟨-, -, hf⟩ := fetchInstr_cases s
  · obtain rfl : i.mnemonic = m := opcode_injective (ho.symm.trans hop)
    have hlen : s.bytesAfterPc.length = i.operandBytes.length + rest.length := by rw [hbytes, List.length_append]
    rw [bytesAfterPc_length, operandBytes_length] at hlen
    omega
  · exact absurd hop (decodeOpcode_eq_none.mp hd m)
  · exact hf

/-- What is fetched as an instruction is in memory byte by byte. -/
theorem encode_getElem_of_prefix (h : encode i <+: s.fetchBytes) {k : Nat} (hk : k < (encode i).length) :
    (encode i)[k] = s.memRead (BitVec.ofNat 8 (s.pc.toNat + k)) := by
  rw [h.getElem hk, fetchBytes_getElem]

/-! ### The next step after a store -/

/-- The next step of a running core is decided by the bytes its memory holds, the stored one among them. -/
theorem fetchSeesStore_of_memRead {d v : Byte} (hrun : t.run = .running)
    (hmem : ∀ a, t.memRead a = if a = d then v else s.memRead a) : FetchSeesStore s t d v where
  memory := hmem
  runs m hop hfit := by
    rw [← hmem] at hop
    obtain ⟨i, hi, hprefix, hf⟩ := fetchInstr_of_opcode hop hfit
    exact ⟨i, hi, step_of_fetchInstr hrun hf, fun k hk => by rw [encode_getElem_of_prefix hprefix hk, hmem]⟩
  pastTop m hop hpast := by
    rw [← hmem] at hop
    exact step_of_fetchInstr_error hrun (fetchInstr_past_top hop hpast)
  invalid hno := by
    rw [← hmem] at hno ⊢
    exact invalidOpcodeFaults t hrun hno

/-- Settles O48: PUSH and CALL leave the running core with the old memory and the one byte stored. -/
theorem storeSeenByNextFetch : Obligations.StoreSeenByNextFetch := by
  intro r s hrun hp hsp hb
  constructor
  · intro hop
    have hpush : step s = .next (s.afterPush r) := by
      rw [step_of_opcode_operand (i := .push (regByte r)) rfl hrun (by omega) hop hb, exec_push hp hsp]
    refine ⟨s.afterPush r, hpush, toNat_afterPush_pc hp, ?_⟩
    rw [afterPush_sp, ← pushedByte_eq]
    exact ⟨toNat_belowSp hsp, fetchSeesStore_of_memRead hrun (memRead_push s s.belowSp (s.pushedByte r))⟩
  · intro hop
    have hcall : step s = .next (s.afterCall r) := by
      rw [step_of_opcode_operand (i := .call (regByte r)) rfl hrun (by omega) hop hb, exec_call hp hsp]
    refine ⟨s.afterCall r, BitVec.ofNat 8 (s.pc.toNat + 2), hcall, ?_⟩
    rw [afterCall_sp, afterCall_pc]
    exact ⟨rfl, toNat_belowSp hsp, toNat_fallThrough hp, fetchSeesStore_of_memRead hrun (afterCall_memRead s r)⟩

end Sys2Proof.Machine
end

section
/-! ## The invariant (R18, R20, R71, R96, R122, R126) -/

namespace Sys2Proof.Machine

variable {s t : State} {i : Instr}

/-! ### Reset -/

/-- Settles O1: an empty memory reads as its reset contents everywhere, and the rest is evaluated. -/
theorem resetState : Obligations.ResetState :=
  ⟨fun _ => rfl, rfl, by decide, rfl, rfl, rfl, rfl, rfl⟩

/-- Settles O49: reset memory is canonical, and the core is idle with no flag set and no record. -/
theorem invAtReset : Obligations.InvAtReset where
  memory := wf_reset
  flags := ⟨rfl, rfl, rfl⟩
  recorded := by decide
  record _ h := nomatch h
  halted h := nomatch h
  idle _ := rfl

/-! ### What a commit keeps -/

theorem commit_wf (hwf : s.mem.wf) (h : Commit i s t) : t.mem.wf := by
  cases i with simp only [Commit] at h
  | hlt => subst h; exact hwf
  | ret => obtain ⟨-, rfl⟩ := h; exact hwf
  | push b | call b => obtain ⟨r, -, -, -, rfl⟩ := h; exact wf_push hwf _ _
  | pop b => obtain ⟨r, -, -, -, rfl⟩ := h; exact hwf
  | prn b | jmp b | ldi b => obtain ⟨r, -, -, rfl⟩ := h; exact hwf
  | jeq b | jne b => obtain ⟨r, -, ⟨-, -, rfl⟩ | ⟨-, -, rfl⟩⟩ := h <;> exact hwf
  | add b c | mult b c | cmp b c => obtain ⟨r, q, -, -, -, rfl⟩ := h; exact hwf

/-- At most one flag is set (R96). -/
def Flags.AtMostOne (f : Flags) : Prop := (f.e && f.l) = false ∧ (f.e && f.g) = false ∧ (f.l && f.g) = false

theorem compareFlags_atMostOne (x y : Byte) : (compareFlags x y).AtMostOne := by
  obtain h | h | h := compareFlags_exactly_one x y <;> rw [h] <;> exact ⟨rfl, rfl, rfl⟩

theorem commit_flags_atMostOne (hf : s.flags.AtMostOne) (h : Commit i s t) : t.flags.AtMostOne := by
  by_cases hi : i.mnemonic = .CMP
  · cases i with cases hi
    | cmp b c =>
      obtain ⟨r, q, -, -, -, rfl⟩ := h
      exact compareFlags_atMostOne (s.reg r) (s.reg q)
  · rwa [commit_flags hi h]

theorem State.Inv.faultRecord_eq_none (hinv : s.Inv) (hrun : s.run ≠ .faulted) : s.faultRecord = none :=
  Option.not_isSome_iff_eq_none.mp fun hsome => hrun (hinv.recorded.mp hsome)

/-- The instruction at `pc` of a running core commits into the invariant. -/
theorem commit_inv (hinv : s.Inv) (hrun : s.run = .running) (hop : s.memRead s.pc = opcode i.mnemonic)
    (h : Commit i s t) : t.Inv := by
  obtain ⟨hidle, hfaulted, hhalted⟩ := commit_run_of_running hrun h
  have hnone : t.faultRecord = none := by
    rw [(commit_run h).1]
    exact hinv.faultRecord_eq_none (by simp [hrun])
  exact
    { memory := commit_wf hinv.memory h
      flags := commit_flags_atMostOne hinv.flags h
      recorded := by simp [hnone, hfaulted]
      record := fun f hf => by simp [hnone] at hf
      halted := fun ht => by
        obtain rfl := hhalted.mp ht
        cases h
        exact hop
      idle := fun ht => absurd ht hidle }

/-! ### What a fault keeps -/

/-- A fault with a legal record keeps the invariant: it writes nothing else but `run`. -/
theorem takeFault_inv {r : Raise} (hinv : s.Inv)
    (hlegal : FaultRecord.legal { cause := r.cause, opcode := s.memRead s.pc, addr := s.pc, info := r.info }) :
    (s.takeFault r).Inv where
  memory := hinv.memory
  flags := hinv.flags
  recorded := by simp
  record f hf := by
    cases hf
    exact ⟨rfl, rfl, hlegal⟩
  halted h := nomatch h
  idle h := nomatch h

theorem invalidInstruction_legal {o a : Byte} (h : decodeOpcode o = none) :
    FaultRecord.legal { cause := invalidInstruction.cause, opcode := o, addr := a, info := invalidInstruction.info } :=
  ⟨rfl, h⟩

theorem AddressFault.legal {r : Raise} {o a : Byte} (hr : AddressFault r) (h : (decodeOpcode o).isSome = true) :
    FaultRecord.legal { cause := r.cause, opcode := o, addr := a, info := r.info } := by
  obtain rfl | rfl | ⟨b, hb, rfl⟩ := hr
  · exact ⟨h, .inl rfl⟩
  · exact ⟨h, .inr (.inl rfl)⟩
  · exact ⟨h, .inr (.inr ⟨b, hb, rfl⟩)⟩

/-! ### Steps, host actions, runs -/

/-- Settles O50: a stopped core stays, a commit keeps the invariant, and the records of both kinds of fault are
legal. -/
theorem stepKeepsInv : Obligations.StepKeepsInv := by
  intro s t hinv h
  obtain ⟨-, rfl⟩ | ⟨hrun, ⟨i, ho, -, hc⟩ | ⟨hd, rfl⟩ | ⟨r, -, hd, ha, rfl⟩⟩ := step_next h
  · exact hinv
  · exact commit_inv hinv hrun ho hc
  · exact takeFault_inv hinv (invalidInstruction_legal hd)
  · exact takeFault_inv hinv (ha.legal hd)

/-! ### The host's actions (R142, R144, R145) -/

variable {h : HostAction}

theorem hostAct_load (hrun : s.run = .idle) (a v : Byte) : hostAct (.load a v) s = some (s.memWrite a v) := by
  rw [hostAct, hrun]

theorem hostAct_load_not_idle (hrun : s.run ≠ .idle) (a v : Byte) : hostAct (.load a v) s = none := by
  cases hr : s.run with
  | idle => exact absurd hr hrun
  | running | halted | faulted => rw [hostAct, hr]

theorem hostAct_start (hrun : s.run = .idle) : hostAct .start s = some (s.setRun .running) := by
  rw [hostAct, hrun]

theorem hostAct_start_terminal (hrun : s.run = .halted ∨ s.run = .faulted) : hostAct .start s = some s := by
  obtain hr | hr := hrun <;> rw [hostAct, hr]

theorem hostAct_observe (hrun : s.run ≠ .running) : hostAct .observe s = some s := by
  cases hr : s.run with
  | running => exact absurd hr hrun
  | idle | halted | faulted => rw [hostAct, hr]

/-- The host has no move but Reset on a running core (R145). -/
theorem hostAct_running (hrun : s.run = .running) (hh : h ≠ .reset) : hostAct h s = none := by
  cases h with
  | reset => exact absurd rfl hh
  | load a v | start | observe => rw [hostAct, hrun]

/-- Settles O54: each action, by the run states that allow it. -/
theorem hostProtocol : Obligations.HostProtocol :=
  fun _ a v => ⟨rfl, fun hr => hostAct_load hr a v, fun hr => hostAct_load_not_idle hr a v, hostAct_start,
    hostAct_start_terminal, fun hr => ⟨hostAct_running hr nofun, hostAct_running hr nofun⟩, hostAct_observe⟩

/-- Everything a host action can do: reset; write a byte or start, on an idle core; or nothing. -/
theorem hostAct_some (hh : hostAct h s = some t) :
    (h = .reset ∧ t = State.reset) ∨
      (s.run = .idle ∧ ((∃ a v, t = s.memWrite a v) ∨ t = s.setRun .running)) ∨ t = s := by
  by_cases hreset : h = .reset
  · subst hreset; cases hh; exact .inl ⟨rfl, rfl⟩
  right
  cases hr : s.run with
  | running => rw [hostAct_running hr hreset] at hh; cases hh
  | idle =>
    cases h with
    | reset => exact absurd rfl hreset
    | load a v => rw [hostAct_load hr] at hh; cases hh; exact .inl ⟨rfl, .inl ⟨a, v, rfl⟩⟩
    | start => rw [hostAct_start hr] at hh; cases hh; exact .inl ⟨rfl, .inr rfl⟩
    | observe => rw [hostAct_observe (by simp [hr])] at hh; cases hh; exact .inr rfl
  | halted | faulted =>
    cases h with
    | reset => exact absurd rfl hreset
    | load a v => rw [hostAct_load_not_idle (by simp [hr])] at hh; cases hh
    | start => rw [hostAct_start_terminal (by simp [hr])] at hh; cases hh; exact .inr rfl
    | observe => rw [hostAct_observe (by simp [hr])] at hh; cases hh; exact .inr rfl

/-- A write to the memory of an idle core keeps the invariant: only memory may differ from reset. -/
theorem memWrite_inv (hinv : s.Inv) (hrun : s.run = .idle) (a v : Byte) : (s.memWrite a v).Inv := by
  have hnone : s.faultRecord = none := hinv.faultRecord_eq_none (by simp [hrun])
  exact
    { memory := wf_memWrite hinv.memory a v
      flags := hinv.flags
      recorded := hinv.recorded
      record := fun f hf => by simp [hnone] at hf
      halted := fun hr => by simp [hrun] at hr
      idle := fun _ => congrArg (State.memWrite · a v) (hinv.idle hrun) }

/-- A started core has no record and has not stopped. -/
theorem setRun_running_inv (hinv : s.Inv) (hrun : s.run = .idle) : (s.setRun .running).Inv := by
  have hnone : s.faultRecord = none := hinv.faultRecord_eq_none (by simp [hrun])
  exact
    { memory := hinv.memory
      flags := hinv.flags
      recorded := by simp [hnone]
      record := fun f hf => by simp [hnone] at hf
      halted := fun hr => nomatch hr
      idle := fun hr => nomatch hr }

/-- Settles O51: by what a host action can do. -/
theorem hostKeepsInv : Obligations.HostKeepsInv := by
  intro h s t hinv hh
  obtain ⟨-, rfl⟩ | ⟨hrun, ⟨a, v, rfl⟩ | rfl⟩ | rfl := hostAct_some hh
  · exact invAtReset
  · exact memWrite_inv hinv hrun a v
  · exact setRun_running_inv hinv hrun
  · exact hinv

/-! ### Moves of the whole system -/

theorem move_core (h : move .core s = some t) : step s = .next t := by
  obtain ⟨u, hu⟩ := everyStepAnswersNext s
  rw [move, hu] at h
  cases h
  exact hu

/-- Settles O52, by induction on the moves. -/
theorem reachableStatesMeetInv : Obligations.ReachableStatesMeetInv := by
  intro s hreach
  induction hreach with
  | reset => exact invAtReset
  | @move s t m _ hm ih =>
    cases m with
    | core => exact stepKeepsInv s t ih (move_core hm)
    | host h => exact hostKeepsInv h s t ih hm

/-- Settles O53: a terminal core steps to itself, and of the host's actions only Reset changes a core that is not
idle. -/
theorem onlyResetLeavesTerminal : Obligations.OnlyResetLeavesTerminal := by
  intro m s t hterm hne hm
  cases m with
  | core =>
    have hstep := move_core hm
    rw [step_of_not_running (not_running_of_terminal hterm)] at hstep
    cases hstep
    rfl
  | host h =>
    obtain ⟨rfl, -⟩ | ⟨hidle, -⟩ | rfl := hostAct_some hm
    · exact absurd rfl hne
    · simp [hidle] at hterm
    · rfl

end Sys2Proof.Machine
end

section
/-! ## Reset, load and start (R140, R143, R144) -/

namespace Sys2Proof.Machine

variable {s : State}

/-- On an idle core, an image that fits is stored byte by byte. -/
theorem loadFrom_of_fits {bs : List Byte} {a : Nat} (hrun : s.run = .idle) (hfit : a + bs.length ≤ 256) :
    loadFrom bs a s = some (State.storeBytes bs a s) := by
  induction bs generalizing a s with
  | nil => rfl
  | cons b bs ih =>
    rw [List.length_cons] at hfit
    have ha : a ≤ Config.topAddr := show a ≤ 255 by omega
    rw [loadFrom, State.storeBytes, if_pos ha, if_pos ha, hostAct_load hrun, Option.bind_some]
    exact ih hrun (by omega)

/-- An image that does not fit cannot be loaded: its byte for address 256 has no cell. -/
theorem loadFrom_of_not_fits {bs : List Byte} {a : Nat} (ha : a ≤ 256) (hlong : 256 < a + bs.length) (s : State) :
    loadFrom bs a s = none := by
  induction bs generalizing a s with
  | nil => rw [List.length_nil] at hlong; omega
  | cons b bs ih =>
    rw [List.length_cons] at hlong
    rw [loadFrom]
    split
    · next hcell => exact Option.bind_eq_none_iff.mpr fun u _ => ih (Nat.succ_le_succ hcell) (by omega) u
    · rfl

/-- The state an image boots to. -/
def bootedWith (image : List Byte) : State := (State.storeBytes image 0 State.reset).setRun .running

theorem boot_of_fits {image : List Byte} (hfit : image.length ≤ 256) : boot image = some (bootedWith image) := by
  have hidle : (State.storeBytes image 0 State.reset).run = .idle := by rw [storeBytes_frame]; rfl
  rw [boot, loadImage, loadFrom_of_fits rfl (by omega), Option.bind_some, hostAct_start hidle]
  rfl

theorem bootedWith_frame (image : List Byte) :
    bootedWith image = { State.reset with mem := (bootedWith image).mem, run := .running } :=
  congrArg (State.setRun · .running) (storeBytes_frame image 0 State.reset)

/-- Settles O55: the image is stored from address 0 into the reset state. -/
theorem bootLoadsImage : Obligations.BootLoadsImage := by
  intro image
  constructor
  · intro hfit
    refine ⟨bootedWith image, boot_of_fits hfit, bootedWith_frame image, fun i hi => ?_, fun a ha => ?_⟩
    · have hcell := memRead_storeBytes_getElem hi (a := 0) (by omega) State.reset
      rwa [Nat.zero_add] at hcell
    · exact memRead_storeBytes_of_ge (by omega) State.reset
  · intro hlong
    rw [boot, loadImage, loadFrom_of_not_fits (by omega) (by omega)]
    rfl

end Sys2Proof.Machine
end
